-- ==== Sys2Proof/Word.lean ====
section
/-! DEFINITION. The widths of the cipher core: 00_scope.md R8 (nibble, key-schedule word, block) and
30_encoding.md R52 (command word). Every value is an unsigned bit vector of a stated width (R12). -/

namespace Sys2Proof

/-- A nibble, a GF(2^4) element or an S-box entry: 4 bits (R8, R65). -/
abbrev Nibble := BitVec 4

/-- A key-schedule word, or one byte of a transport: 8 bits (R8, R39). -/
abbrev Byte := BitVec 8

/-- A block, key or round key: 16 bits (R8). -/
abbrev Block := BitVec 16

/-- A command word: 40 bits (R52, R55). -/
abbrev CommandWord := BitVec 40

end Sys2Proof
end

