-- ==== Sys2Proof/Syntax.lean ====
section
/-! DEFINITION. The eight commands of 30_encoding.md R56 with the operands of R57, and the command as the
assembler reads it (R61). -/

namespace Sys2Proof

/-- The operations of the opcode map (R56), in its order. -/
inductive Op where
  | gfmul | subnib | shiftrows | mixcol | subbyte | addkey | keyexp | encrypt
  deriving DecidableEq, Repr

/-- A decoded command: one constructor per row of the opcode table, its operands at the widths of R57. -/
inductive Instr where
  /-- GFMUL a, b (R74): `a = A[3:0]`, `b = B[3:0]`. -/
  | gfmul (a b : Nibble)
  /-- SUBNIB x (R82): `x = A`. -/
  | subnib (x : Block)
  /-- SHIFTROWS x (R90): `x = A`. -/
  | shiftrows (x : Block)
  /-- MIXCOL x (R95): `x = A`. -/
  | mixcol (x : Block)
  /-- SUBBYTE x (R85): `x = A[7:0]`. -/
  | subbyte (x : Byte)
  /-- ADDKEY x, k (R97): `x = A`, `k = B`. -/
  | addkey (x k : Block)
  /-- KEYEXP key (R105): `key = B`. -/
  | keyexp (key : Block)
  /-- ENCRYPT pt, key (R113): `pt = A`, `key = B`. -/
  | encrypt (pt key : Block)
  deriving DecidableEq, Repr

/-- The operation of a command. -/
def Instr.op : Instr → Op
  | .gfmul _ _ => .gfmul
  | .subnib _ => .subnib
  | .shiftrows _ => .shiftrows
  | .mixcol _ => .mixcol
  | .subbyte _ => .subbyte
  | .addkey _ _ => .addkey
  | .keyexp _ => .keyexp
  | .encrypt _ _ => .encrypt

/-- A command as the assembler has read it, before its operands are checked: an operation and the
unsigned literals, in the order of R57's operand columns (R61). -/
structure SourceCommand where
  op : Op
  operands : List Nat
  deriving DecidableEq, Repr

end Sys2Proof
end

