-- ==== Sys2Proof/Config.lean ====
section
/-! DEFINITION. What an implementation fixes and the spec leaves open: the S-box table (00_scope.md R10,
92 D12) and the latency of a command (R11, 92 D19). Both are opaque: no proof can see a value of theirs. -/

namespace Sys2Proof

/-- The type of the parameter SBOX: a bijection on 4-bit values (R10, R77).
A permutation is a map together with its bijectivity, which R10 says the parameter comes with. -/
abbrev Sbox := Equiv.Perm Nibble

/-- The S-box ROM of this core (R31): any bijection at all. PARAMETER, log entry 1; no entry is known
(91 N1) and a statement about it holds for every bijection. -/
opaque Config.sbox : Sbox

/-- LATENCY: the cycles a command takes, at least 1 (R144). PARAMETER, log entry 2; no rule reads it. -/
opaque Config.latency : Instr → PNat

end Sys2Proof
end

