-- ==== Sys2Proof/WellFormed.lean ====
section
/-! DEFINITION. Which commands and which words are well formed: the assembler's operand check
(30_encoding.md R61), the domains of R34, and the mask and match test of the opcode table (R60). -/

namespace Sys2Proof

/-- For each operand of an operation, the first number outside its range (R57, R61). -/
def Op.operandBounds : Op → List Nat
  | .gfmul => [16, 16]
  | .subnib => [65536]
  | .shiftrows => [65536]
  | .mixcol => [65536]
  | .subbyte => [256]
  | .addkey => [65536, 65536]
  | .keyexp => [65536]
  | .encrypt => [65536, 65536]

/-- Each literal lies below the bound of its place, and there are as many as there are places. -/
def withinBounds : List Nat → List Nat → Bool
  | [], [] => true
  | b :: bs, v :: vs => decide (v < b) && withinBounds bs vs
  | _, _ => false

/-- The assembler's check: the right number of operands, each in range; nothing is truncated (R61). -/
def SourceCommand.wellFormed (c : SourceCommand) : Bool :=
  withinBounds c.op.operandBounds c.operands

/-- The command as the assembler's reader would have read it: its operands as numbers (R61). -/
def Instr.source : Instr → SourceCommand
  | .gfmul a b => ⟨.gfmul, [a.toNat, b.toNat]⟩
  | .subnib x => ⟨.subnib, [x.toNat]⟩
  | .shiftrows x => ⟨.shiftrows, [x.toNat]⟩
  | .mixcol x => ⟨.mixcol, [x.toNat]⟩
  | .subbyte x => ⟨.subbyte, [x.toNat]⟩
  | .addkey x k => ⟨.addkey, [x.toNat, k.toNat]⟩
  | .keyexp key => ⟨.keyexp, [key.toNat]⟩
  | .encrypt pt key => ⟨.encrypt, [pt.toNat, key.toNat]⟩

/-- A command is well formed when its operands, as numbers, lie in their domains. The operand widths make
this hold of every command: R34's ranges follow from the widths and are not checked at run time. -/
def Instr.wellFormed (i : Instr) : Bool := i.source.wellFormed

/-- One row of the opcode table: the words of an operation are those with `word & mask = pattern`. -/
structure OpcodeRow where
  op : Op
  mask : CommandWord
  pattern : CommandWord
  deriving DecidableEq, Repr

/-- The opcode table, row by row, as spec/opcode_table.json gives mask and match (R56, R60). -/
def opcodeTable : List OpcodeRow :=
  [⟨.gfmul, 0xFFFFF0FFF0#40, 0x0100000000#40⟩,
   ⟨.subnib, 0xFF0000FFFF#40, 0x0200000000#40⟩,
   ⟨.shiftrows, 0xFF0000FFFF#40, 0x0300000000#40⟩,
   ⟨.mixcol, 0xFF0000FFFF#40, 0x0400000000#40⟩,
   ⟨.subbyte, 0xFFFF00FFFF#40, 0x0500000000#40⟩,
   ⟨.addkey, 0xFF00000000#40, 0x0600000000#40⟩,
   ⟨.keyexp, 0xFFFFFF0000#40, 0x0700000000#40⟩,
   ⟨.encrypt, 0xFF00000000#40, 0x0800000000#40⟩]

/-- The row's test of a word (R60). -/
def OpcodeRow.selects (r : OpcodeRow) (w : CommandWord) : Bool := w &&& r.mask == r.pattern

/-- A word is legal when some row selects it (R53, R58, R59, R60). -/
def legalWord (w : CommandWord) : Bool := opcodeTable.any (·.selects w)

end Sys2Proof
end

