-- ==== Sys2Proof/Decode.lean ====
section
/-! DEFINITION. The decoder of 30_encoding.md R60, total on every 40-bit word and rejecting by name; then the
encoder (R57, R62); then a word carried as bytes (20_memory.md R39); then the host's entry to the decoder. -/

namespace Sys2Proof

/-- Why a word, or a run of bytes, is no command. -/
inductive DecodeError where
  /-- OPC is 0x00 or lies in 0x09 … 0xFF (R59). -/
  | reservedOpcode (opc : BitVec 8)
  /-- OPC is assigned and a reserved-zero bit of its command is 1 (R58). -/
  | reservedBits (op : Op)
  /-- A transport delivered fewer than the five bytes of a word; no word was issued (R39, R42). -/
  | truncated (got : Nat)
  deriving DecidableEq, Repr

/-- OPC = word[39:32] (R55). -/
def opcField (w : CommandWord) : BitVec 8 := w.extractLsb' 32 8

/-- A = word[31:16] (R55). -/
def fieldA (w : CommandWord) : BitVec 16 := w.extractLsb' 16 16

/-- B = word[15:0] (R55). -/
def fieldB (w : CommandWord) : BitVec 16 := w.extractLsb' 0 16

/-- `0xOO_AAAA_BBBB`: the word with these three fields (R55). -/
def packWord (opc : BitVec 8) (a b : BitVec 16) : CommandWord := opc ++ a ++ b

/-- The command, if its reserved-zero bits are all 0; otherwise the word is refused, never truncated (R58). -/
def ifReservedZero (reservedZero : Bool) (i : Instr) : Except DecodeError Instr :=
  if reservedZero then .ok i else .error (.reservedBits i.op)

/-- The decoder of R60 on a word's three fields. -/
def decodeFields (opc : BitVec 8) (a b : BitVec 16) : Except DecodeError Instr :=
  match opc with
  | 0x01#8 => ifReservedZero (a.extractLsb' 4 12 == 0#12 && b.extractLsb' 4 12 == 0#12)
      (.gfmul (a.extractLsb' 0 4) (b.extractLsb' 0 4))
  | 0x02#8 => ifReservedZero (b == 0#16) (.subnib a)
  | 0x03#8 => ifReservedZero (b == 0#16) (.shiftrows a)
  | 0x04#8 => ifReservedZero (b == 0#16) (.mixcol a)
  | 0x05#8 => ifReservedZero (a.extractLsb' 8 8 == 0#8 && b == 0#16) (.subbyte (a.extractLsb' 0 8))
  | 0x06#8 => .ok (.addkey a b)
  | 0x07#8 => ifReservedZero (a == 0#16) (.keyexp b)
  | 0x08#8 => .ok (.encrypt a b)
  | opc => .error (.reservedOpcode opc)

/-- The decoder of R60. -/
def decode (w : CommandWord) : Except DecodeError Instr := decodeFields (opcField w) (fieldA w) (fieldB w)

/-- The opcode numbers of R56. -/
def Op.opcode : Op → BitVec 8
  | .gfmul => 0x01#8
  | .subnib => 0x02#8
  | .shiftrows => 0x03#8
  | .mixcol => 0x04#8
  | .subbyte => 0x05#8
  | .addkey => 0x06#8
  | .keyexp => 0x07#8
  | .encrypt => 0x08#8

/-- Field A of a command's word, reserved bits 0 (R57). -/
def Instr.encodeA : Instr → BitVec 16
  | .gfmul a _ => a.setWidth 16
  | .subnib x => x
  | .shiftrows x => x
  | .mixcol x => x
  | .subbyte x => x.setWidth 16
  | .addkey x _ => x
  | .keyexp _ => 0#16
  | .encrypt pt _ => pt

/-- Field B of a command's word, reserved bits 0 (R57). -/
def Instr.encodeB : Instr → BitVec 16
  | .gfmul _ b => b.setWidth 16
  | .subnib _ => 0#16
  | .shiftrows _ => 0#16
  | .mixcol _ => 0#16
  | .subbyte _ => 0#16
  | .addkey _ k => k
  | .keyexp key => key
  | .encrypt _ key => key

/-- The word of a command (R62). -/
def encode (i : Instr) : CommandWord := packWord i.op.opcode i.encodeA i.encodeB

/-- A word as a transport carries it: OPC, A high, A low, B high, B low (R39). -/
def bytesOfWord (w : CommandWord) : List Byte :=
  [w.extractLsb' 32 8, w.extractLsb' 24 8, w.extractLsb' 16 8, w.extractLsb' 8 8, w.extractLsb' 0 8]

/-- The word a transport reassembles from its next five bytes, and the bytes after them (R39, R42). -/
def wordOfBytes : List Byte → Except DecodeError (CommandWord × List Byte)
  | opc :: ah :: al :: bh :: bl :: rest => .ok (packWord opc (ah ++ al) (bh ++ bl), rest)
  | short => .error (.truncated short.length)

/-- The command read from the front of a run of bytes, and the bytes after it. -/
def decodeBytes (bs : List Byte) : Except DecodeError (Instr × List Byte) := do
  let (w, rest) ← wordOfBytes bs
  let i ← decode w
  pure (i, rest)

/-- The bytes of a command's word (R39). -/
def encodeBytes (i : Instr) : List Byte := bytesOfWord (encode i)

/-- A response register read as bytes: high byte first (R39). -/
def bytesOfResponse (v : Block) : List Byte := [v.extractLsb' 8 8, v.extractLsb' 0 8]

/-- The word an `nbits`-bit number of the opcode table stands for: the core's one instruction word has 40
bits, numbered as the table numbers them; the bits above `nbits` are 0. -/
def tableWord (nbits w : Nat) : CommandWord := BitVec.ofNat 40 (w % 2 ^ nbits)

/-- The command the decoder reads from the word of an opcode-table row. -/
def decodeTableWord (nbits w : Nat) : Option Instr := (decode (tableWord nbits w)).toOption

end Sys2Proof
end

