-- ==== Sys2Proof/Machine/State.lean ====
section
/-! DEFINITION. The state of the core (10_state.md R20, R21, R29, R37; 60_exceptions.md R116), the host's side
of its port (R35; 70 R146), the state after reset (R36), and why a step can stop. Plain data throughout. -/

namespace Sys2Proof.Machine

/-- The names of the eleven response registers, in index order (R21). -/
inductive RespReg where
  | res | rk0 | rk1 | rk2 | tr0 | tr1 | tr2 | tr3 | tr4 | tr5 | tr6
  deriving DecidableEq, Repr

/-- What the sticky fault record holds (R116). -/
inductive FaultRecord where
  /-- Code 1: a word that does not decode was issued; the word is recorded (R118). -/
  | illegalCommand (w : CommandWord)
  /-- Code 2, model only: the data of a register holding NONE was read; the register is recorded (R120). -/
  | readNoValue (r : RespReg)
  deriving DecidableEq, Repr

/-- STATUS as its three fields (R29). The packing is left to the model (93 I10; log entry 9). -/
structure Status where
  fault : BitVec 1
  fcode : BitVec 4
  finfo : BitVec 40
  deriving DecidableEq, Repr

/-- What the host can do to the core (R35, R146). It has no move that breaks duty (a) or (b) of R143, as
R143 says (log entry 8), and none that writes a response register (R25). -/
inductive HostAction where
  /-- Issue one 40-bit word at the command port. -/
  | issue (w : CommandWord)
  /-- Read the data of a response register. -/
  | readData (r : RespReg)
  /-- Read the valid bit of a response register. -/
  | readValid (r : RespReg)
  /-- Read STATUS. -/
  | readStatus
  /-- Apply reset. -/
  | reset
  /-- Issue one word and apply reset while that command is in flight (R136). -/
  | resetInFlight (w : CommandWord)
  deriving DecidableEq, Repr

/-- A value a read returned (R146). -/
inductive Observation where
  | data (r : RespReg) (v : Block)
  | valid (r : RespReg) (bit : Bool)
  | status (st : Status)
  deriving DecidableEq, Repr

/-- The machine: eleven response registers, each a value or NONE (R21); the fault record (R116), of which
STATUS is the projection (R29); and the host's side of the port, the model's own (log entry 4): the
actions still to happen, first one first, and the values its reads returned, first one first. -/
structure State where
  res : Option Block
  rk0 : Option Block
  rk1 : Option Block
  rk2 : Option Block
  tr0 : Option Block
  tr1 : Option Block
  tr2 : Option Block
  tr3 : Option Block
  tr4 : Option Block
  tr5 : Option Block
  tr6 : Option Block
  fault : Option FaultRecord
  pending : List HostAction
  observed : List Observation
  deriving DecidableEq, Repr

/-- The state after reset, and at power-on (R36, R137, R138): every register NONE, no fault. No host
action is pending and nothing has been read (DESIGN CHOICE, log entry 4). -/
def State.reset : State :=
  { res := none, rk0 := none, rk1 := none, rk2 := none,
    tr0 := none, tr1 := none, tr2 := none, tr3 := none, tr4 := none, tr5 := none, tr6 := none,
    fault := none, pending := [], observed := [] }

/-- Why a step stops. -/
inductive Fault where
  /-- Raised by issuing any word while a fault record stands: that issue "has no step" (R123, 93 I4). The
  standing record is carried along. Safe: nothing can be proved of a state after such an issue. -/
  | issueWhileFaulted (standing : FaultRecord)
  deriving DecidableEq, Repr

/-- Why an instruction has no meaning. -/
inductive Refusal where
  /-- Raised by an arm of `exec` whose instruction has no meaning yet. Safe. No arm raises it now. -/
  | notModelled (mnemonic : String)
  deriving DecidableEq, Repr

end Sys2Proof.Machine
end

