-- ==== Sys2Proof/Machine/Ops.lean ====
section
/-! DEFINITION. The named operations over the state: reading and writing a response register (10_state.md
R16, R21), a command's response (R26), taking a fault (60_exceptions.md R119, R120), and reset, the only
return from one (R126; 70 R137). The core has no memory, so there are no memory operations (20 R40). -/

namespace Sys2Proof.Machine

/-- The index of a response register (R21). -/
def RespReg.index : RespReg → Fin 11
  | .res => 0 | .rk0 => 1 | .rk1 => 2 | .rk2 => 3
  | .tr0 => 4 | .tr1 => 5 | .tr2 => 6 | .tr3 => 7 | .tr4 => 8 | .tr5 => 9 | .tr6 => 10

/-- `R[r]`: what a response register holds (R16). -/
def State.reg (s : State) : RespReg → Option Block
  | .res => s.res | .rk0 => s.rk0 | .rk1 => s.rk1 | .rk2 => s.rk2
  | .tr0 => s.tr0 | .tr1 => s.tr1 | .tr2 => s.tr2 | .tr3 => s.tr3
  | .tr4 => s.tr4 | .tr5 => s.tr5 | .tr6 => s.tr6

/-- `R[r] <- v`, and `R[r] <- NONE` for `none` (R16). -/
def State.setReg (s : State) (r : RespReg) (v : Option Block) : State :=
  match r with
  | .res => { s with res := v } | .rk0 => { s with rk0 := v }
  | .rk1 => { s with rk1 := v } | .rk2 => { s with rk2 := v }
  | .tr0 => { s with tr0 := v } | .tr1 => { s with tr1 := v }
  | .tr2 => { s with tr2 := v } | .tr3 => { s with tr3 := v }
  | .tr4 => { s with tr4 := v } | .tr5 => { s with tr5 := v }
  | .tr6 => { s with tr6 := v }

/-- Every response register set to NONE. -/
def State.clearResponses (s : State) : State :=
  { s with
    res := none, rk0 := none, rk1 := none, rk2 := none,
    tr0 := none, tr1 := none, tr2 := none, tr3 := none, tr4 := none, tr5 := none, tr6 := none }

/-- A command's effect on the state: the registers of its write set hold their values and every other
response register holds NONE (R26). -/
def State.respond (s : State) (writes : List (RespReg × Block)) : State :=
  writes.foldl (fun t w => t.setReg w.1 (some w.2)) s.clearResponses

/-- The fault record set, unless one stands already: the first is never overwritten (R116, R123, R124). -/
def State.recordFault (s : State) (f : FaultRecord) : State :=
  match s.fault with
  | none => { s with fault := some f }
  | some _ => s

/-- TAKING A FAULT, one operation for both (R119, R120, R125: nothing else changes). IllegalCommand sets
every response register to NONE; ReadNoValue leaves them. Both leave a standing record as it is. -/
def State.takeFault (s : State) (f : FaultRecord) : State :=
  match f with
  | .illegalCommand w => s.clearResponses.recordFault (.illegalCommand w)
  | .readNoValue r => s.recordFault (.readNoValue r)

/-- Reset, and the return from a fault (R126, R136, R137): every register NONE and no fault. The host's own
record of its actions and readings is not the core's and stays (log entry 4). -/
def State.applyReset (s : State) : State :=
  { s.clearResponses with fault := none }

/-- The host's actions still to happen, replaced. -/
def State.setPending (s : State) (actions : List HostAction) : State := { s with pending := actions }

/-- A read's value added to what the host has observed (R146). -/
def State.observe (s : State) (o : Observation) : State :=
  { s with observed := s.observed ++ [o] }

end Sys2Proof.Machine
end

