-- ==== Sys2Proof/Machine/Operands.lean ====
section
/-! DEFINITION. Operand slices and their reassembly (00_scope.md R12 to R15; 20_memory.md R38). Every operand
of a command is an immediate (10_state.md R30), so there are no other operand forms. -/

namespace Sys2Proof.Machine

/-- `nib(x, i) = x[4i+3:4i]` (R13). -/
def nib (x : Block) (i : Nat) : Nibble := x.extractLsb' (4 * i) 4

/-- `n3 ‖ n2 ‖ n1 ‖ n0`: a block from its nibbles (R13, R14). -/
def joinNibbles (n3 n2 n1 n0 : Nibble) : Block := n3 ++ n2 ++ n1 ++ n0

/-- The high byte of a block, `x[15:8]` (R38). -/
def hiByte (x : Block) : Byte := x.extractLsb' 8 8

/-- The low byte of a block, `x[7:0]` (R38). -/
def loByte (x : Block) : Byte := x.extractLsb' 0 8

/-- `hi ‖ lo`, high byte first (R14, R38). -/
def joinBytes (hi lo : Byte) : Block := hi ++ lo

/-- The high nibble of a byte, `w[7:4]` (R38). -/
def hiNibble (w : Byte) : Nibble := w.extractLsb' 4 4

/-- The low nibble of a byte, `w[3:0]` (R38). -/
def loNibble (w : Byte) : Nibble := w.extractLsb' 0 4

/-- `hi ‖ lo`, a byte from its nibbles (R14, R38). -/
def joinByte (hi lo : Nibble) : Byte := hi ++ lo

/-- `mask4(v) = v & 0xF` (R15). -/
def mask4 (v : Nibble) : Nibble := v &&& 0xF#4

/-- `zext_16(v)` (R15). -/
def zext16 {n : Nat} (v : BitVec n) : Block := v.setWidth 16

end Sys2Proof.Machine
end

