-- ==== Sys2Proof/Machine/Flags.lean ====
section
/-! DEFINITION. The core has no flags or condition codes (10_state.md R28), so no command computes one. What
stands here is the core's only status register, STATUS, computed from the fault record (R29; 60 R117). -/

namespace Sys2Proof.Machine

/-- The code of a fault record (R117); 0 where there is none, 3 to 15 unused. -/
def faultCode : Option FaultRecord → BitVec 4
  | none => 0#4
  | some (.illegalCommand _) => 1#4
  | some (.readNoValue _) => 2#4

/-- STATUS: the hardware-visible projection of the fault record. ReadNoValue is model-only and never
shows (R29, R117, R120). -/
def State.status (s : State) : Status :=
  match s.fault with
  | some (.illegalCommand w) => ⟨1#1, faultCode s.fault, w⟩
  | some (.readNoValue _) => ⟨0#1, 0#4, 0#40⟩
  | none => ⟨0#1, 0#4, 0#40⟩

/-- The valid bit of a response register: 0 exactly when it holds NONE (R21). -/
def State.validBit (s : State) (r : RespReg) : Bool := (s.reg r).isSome

end Sys2Proof.Machine
end

