-- ==== Sys2Proof/Machine/Rom.lean ====
section
/-! DEFINITION. The constant ROM (10_state.md R32; 00_scope.md R9): values no command and no reset changes and
the host cannot read. The literals are unaudited and taken as written (R5, 92 D23; log entry 7). -/

namespace Sys2Proof.Machine

/-- GF_POLY: x^4 + x + 1 (R9). -/
def gfPoly : BitVec 5 := 0b10011#5

/-- RCON1 (R9). -/
def rcon1 : Byte := 0b10000000#8

/-- RCON2 (R9). -/
def rcon2 : Byte := 0b00110000#8

/-- The 2×2 mixing matrix, by row and column. -/
structure MixMatrix where
  m00 : Nibble
  m01 : Nibble
  m10 : Nibble
  m11 : Nibble
  deriving DecidableEq, Repr

/-- MIX = [[1,4],[4,1]] (R9). -/
def mixMatrix : MixMatrix := ⟨1#4, 4#4, 4#4, 1#4⟩

/-- NR: the number of rounds (R32, R102). -/
def roundCount : Nat := 2

end Sys2Proof.Machine
end

