-- ==== Sys2Proof/Machine/Sbe.lean ====
section
/-! DEFINITION. SBE, the nibble S-box substitution engine, with SUBNIB and SUBBYTE (41_sbox_engine.md). Every
function takes the table as its first argument; the core's own table is `Config.sbox` (R76, R77, R78). -/

namespace Sys2Proof.Machine

/-- `sub_nib(x)`: each nibble replaced by its entry, in its own place (R79). -/
def subNib (sbox : Sbox) (x : Block) : Block :=
  joinNibbles (sbox (nib x 3)) (sbox (nib x 2)) (sbox (nib x 1)) (sbox (nib x 0))

/-- `sub_byte(w)`: both nibbles replaced, the high one stays high (R83). -/
def subByte (sbox : Sbox) (w : Byte) : Byte :=
  joinByte (sbox (hiNibble w)) (sbox (loNibble w))

/-- SUBNIB (R82). -/
def execSubnib (x : Block) (s : State) : Host.Outcome State Fault Refusal :=
  .next (s.respond [(.res, subNib Config.sbox x)])

/-- SUBBYTE (R85). -/
def execSubbyte (x : Byte) (s : State) : Host.Outcome State Fault Refusal :=
  .next (s.respond [(.res, zext16 (subByte Config.sbox x))])

end Sys2Proof.Machine
end

