-- ==== Sys2Proof/Machine/Ksu.lean ====
section
/-! DEFINITION. KSU, the round-key expansion unit, and KEYEXP (43_key_schedule.md). No nibble rotation stands
in the recurrence (R100; 90_conflicts.md C2). -/

namespace Sys2Proof.Machine

/-- The three round keys (R99). -/
structure RoundKeys where
  k0 : Block
  k1 : Block
  k2 : Block
  deriving DecidableEq, Repr

/-- KSU's internal words while one key is expanded (10_state.md R33). -/
structure KeyWords where
  w0 : Byte
  w1 : Byte
  w2 : Byte
  w3 : Byte
  w4 : Byte
  w5 : Byte
  deriving DecidableEq, Repr

/-- The recurrence that fills the words (R98, R99). -/
def keyWords (sbox : Sbox) (key : Block) : KeyWords :=
  let w0 := hiByte key
  let w1 := loByte key
  let w2 := w0 ^^^ rcon1 ^^^ subByte sbox w1
  let w3 := w2 ^^^ w1
  let w4 := w2 ^^^ rcon2 ^^^ subByte sbox w3
  let w5 := w4 ^^^ w3
  ⟨w0, w1, w2, w3, w4, w5⟩

/-- `key_exp(key)`: K0 = w0‖w1, K1 = w2‖w3, K2 = w4‖w5 (R99). -/
def keyExp (sbox : Sbox) (key : Block) : RoundKeys :=
  let w := keyWords sbox key
  ⟨joinBytes w.w0 w.w1, joinBytes w.w2 w.w3, joinBytes w.w4 w.w5⟩

/-- The registers that hold round keys, with their values (R23). -/
def roundKeyWrites (ks : RoundKeys) : List (RespReg × Block) :=
  [(.rk0, ks.k0), (.rk1, ks.k1), (.rk2, ks.k2)]

/-- KEYEXP (R105): RES is not in its write set (R22, 92 D22). -/
def execKeyexp (key : Block) (s : State) : Host.Outcome State Fault Refusal :=
  .next (s.respond (roundKeyWrites (keyExp Config.sbox key)))

end Sys2Proof.Machine
end

