-- ==== Sys2Proof/Machine/Gfm.lean ====
section
/-! DEFINITION. GFM, the GF(2^4) field multiplier, and GFMUL (40_gf_multiplier.md). -/

namespace Sys2Proof.Machine

/-- GFM's internal registers while one multiplication runs (10_state.md R33): the accumulator, the
multiplicand with its spare bit, and the multiplier. -/
structure GfmRegs where
  p : BitVec 4
  aa : BitVec 5
  bb : BitVec 4
  deriving DecidableEq, Repr

/-- The multiplicand shifted left by one and reduced if the shifted-out bit was set (R67, R68; 91 N16). -/
def shiftReduce (aa : BitVec 5) : BitVec 5 :=
  let shifted := (aa.setWidth 4).setWidth 5 <<< 1
  if shifted.getLsbD 4 then shifted ^^^ gfPoly else shifted

/-- One shift-and-add iteration (R67). -/
def gfmIterate (g : GfmRegs) : GfmRegs :=
  { p := if g.bb.getLsbD 0 then g.p ^^^ g.aa.setWidth 4 else g.p
    aa := shiftReduce g.aa
    bb := g.bb >>> 1 }

/-- The given number of iterations. -/
def gfmIterations : Nat → GfmRegs → GfmRegs
  | 0, g => g
  | n + 1, g => gfmIterations n (gfmIterate g)

/-- `gf_mul(a, b)`: four iterations from a clear accumulator (R67). -/
def gfMul (a b : Nibble) : Nibble :=
  mask4 (gfmIterations 4 { p := 0#4, aa := a.setWidth 5, bb := b }).p

/-- GFMUL (R74). -/
def execGfmul (a b : Nibble) (s : State) : Host.Outcome State Fault Refusal :=
  .next (s.respond [(.res, zext16 (gfMul a b))])

end Sys2Proof.Machine
end

