-- ==== Sys2Proof/Machine/Spn.lean ====
section
/-! DEFINITION. The SPN stages and SHIFTROWS, MIXCOL, ADDKEY (42_permutation_mixing.md). The source's shift is
followed, not the published S-AES one (R88; 90_conflicts.md C2). -/

namespace Sys2Proof.Machine

/-- `shift_rows(x)`: nibbles n1 and n3 swapped, n0 and n2 in place (R87). -/
def shiftRows (x : Block) : Block :=
  joinNibbles (nib x 1) (nib x 2) (nib x 3) (nib x 0)

/-- The upper nibble-row's product of MIX with a column (R91): `MIX[0][0]·top ^ MIX[0][1]·bottom`. -/
def mixTop (top bottom : Nibble) : Nibble :=
  gfMul mixMatrix.m00 top ^^^ gfMul mixMatrix.m01 bottom

/-- The lower nibble-row's product of MIX with a column (R91): `MIX[1][0]·top ^ MIX[1][1]·bottom`. -/
def mixBottom (top bottom : Nibble) : Nibble :=
  gfMul mixMatrix.m10 top ^^^ gfMul mixMatrix.m11 bottom

/-- `mix_col(x)`: the columns (n0, n1) and (n2, n3) each multiplied by MIX (R91, R92). -/
def mixCol (x : Block) : Block :=
  joinNibbles (mixBottom (nib x 2) (nib x 3)) (mixTop (nib x 2) (nib x 3))
    (mixBottom (nib x 0) (nib x 1)) (mixTop (nib x 0) (nib x 1))

/-- `add_key(x, k)` (R96). -/
def addKey (x k : Block) : Block := x ^^^ k

/-- SHIFTROWS (R90). -/
def execShiftrows (x : Block) (s : State) : Host.Outcome State Fault Refusal :=
  .next (s.respond [(.res, shiftRows x)])

/-- MIXCOL (R95). -/
def execMixcol (x : Block) (s : State) : Host.Outcome State Fault Refusal :=
  .next (s.respond [(.res, mixCol x)])

/-- ADDKEY (R97). -/
def execAddkey (x k : Block) (s : State) : Host.Outcome State Fault Refusal :=
  .next (s.respond [(.res, addKey x k)])

end Sys2Proof.Machine
end

