-- ==== Sys2Proof/Machine/Pipeline.lean ====
section
/-! DEFINITION. The two-round encryption pipeline and ENCRYPT (44_encryption_pipeline.md). -/

namespace Sys2Proof.Machine

/-- What one encryption yields: the ciphertext, the round keys and the seven intermediate states (R107). -/
structure Encryption where
  ct : Block
  keys : RoundKeys
  st1 : Block
  st2 : Block
  st3 : Block
  st4 : Block
  st5 : Block
  st6 : Block
  st7 : Block
  deriving DecidableEq, Repr

/-- `encrypt(pt, key)`, stage after stage, its keys derived afresh (R107). -/
def encryptBlock (sbox : Sbox) (pt key : Block) : Encryption :=
  let ks := keyExp sbox key
  let st1 := addKey pt ks.k0
  let st2 := subNib sbox st1
  let st3 := shiftRows st2
  let st4 := mixCol st3
  let st5 := addKey st4 ks.k1
  let st6 := subNib sbox st5
  let st7 := shiftRows st6
  let ct := addKey st7 ks.k2
  ⟨ct, ks, st1, st2, st3, st4, st5, st6, st7⟩

/-- The trace registers with the states after stages 1 to 7 (R106, 92 D13). -/
def traceWrites (e : Encryption) : List (RespReg × Block) :=
  [(.tr0, e.st1), (.tr1, e.st2), (.tr2, e.st3), (.tr3, e.st4), (.tr4, e.st5), (.tr5, e.st6), (.tr6, e.st7)]

/-- ENCRYPT (R113): its write set is every response register. -/
def execEncrypt (pt key : Block) (s : State) : Host.Outcome State Fault Refusal :=
  let e := encryptBlock Config.sbox pt key
  .next (s.respond ((.res, e.ct) :: roundKeyWrites e.keys ++ traceWrites e))

/-- The operations of the pipeline's stages (R106); `keyMix n` XORs in round key `n`. -/
inductive Stage where
  | keyMix (n : Fin 3)
  | substitute
  | shift
  | mix
  deriving DecidableEq, Repr

/-- The round keys by number. -/
def RoundKeys.key (ks : RoundKeys) (n : Fin 3) : Block :=
  match n with
  | 0 => ks.k0
  | 1 => ks.k1
  | 2 => ks.k2

/-- One stage's new state value (R106). -/
def runStage (sbox : Sbox) (ks : RoundKeys) (st : Block) : Stage → Block
  | .keyMix n => addKey st (ks.key n)
  | .substitute => subNib sbox st
  | .shift => shiftRows st
  | .mix => mixCol st

/-- The stages of round `n`: the last round has no column mixing (R108). -/
def roundStages (n : Fin 3) : List Stage :=
  [.substitute, .shift] ++ (if n.val = roundCount then [] else [.mix]) ++ [.keyMix n]

/-- Stages 1 to 8, in their fixed order (R106, R109). -/
def pipelineStages : List Stage := .keyMix 0 :: roundStages 1 ++ roundStages 2

/-- The state value after each stage, first one first: the pipeline as the state machine of R106. -/
def runStages (sbox : Sbox) (ks : RoundKeys) : List Stage → Block → List Block
  | [], _ => []
  | g :: rest, st => runStage sbox ks st g :: runStages sbox ks rest (runStage sbox ks st g)

end Sys2Proof.Machine
end

