-- ==== Sys2Proof/Machine/Dispatch.lean ====
section
/-! DEFINITION. What each decoded command does: one arm per command of the opcode table (30_encoding.md R56). -/

namespace Sys2Proof.Machine

def exec (i : Instr) (s : State) : Host.Outcome State Fault Refusal :=
  match i with
  | .gfmul a b => Sys2Proof.Machine.execGfmul a b s
  | .subnib x => Sys2Proof.Machine.execSubnib x s
  | .shiftrows x => Sys2Proof.Machine.execShiftrows x s
  | .mixcol x => Sys2Proof.Machine.execMixcol x s
  | .subbyte x => Sys2Proof.Machine.execSubbyte x s
  | .addkey x k => Sys2Proof.Machine.execAddkey x k s
  | .keyexp key => Sys2Proof.Machine.execKeyexp key s
  | .encrypt pt key => Sys2Proof.Machine.execEncrypt pt key s

end Sys2Proof.Machine
end

