-- ==== Sys2Proof/Machine/Port.lean ====
section
/-! DEFINITION. The core's ports: what each host action does, as one atomic step (10_state.md R25, R35;
60_exceptions.md R118 to R123; 70 R136). -/

namespace Sys2Proof.Machine

/-- One word issued at the command port. While a fault stands no word is accepted and the issue has no
step (R123); a word that does not decode raises IllegalCommand (R118, R119); any other runs. -/
def issueWord (w : CommandWord) (s : State) : Host.Outcome State Fault Refusal :=
  match s.fault with
  | some f => .fault (.issueWhileFaulted f)
  | none =>
    match decode w with
    | .ok i => exec i s
    | .error _ => .next (s.takeFault (.illegalCommand w))

/-- A register's data read: its value, or no value and ReadNoValue (R25, R120). -/
def readData (r : RespReg) (s : State) : State :=
  match s.reg r with
  | some v => s.observe (.data r v)
  | none => s.takeFault (.readNoValue r)

/-- A register's valid bit read: never a fault (R25). -/
def readValid (r : RespReg) (s : State) : State := s.observe (.valid r (s.validBit r))

/-- STATUS read: never a fault (R29). -/
def readStatus (s : State) : State := s.observe (.status s.status)

/-- One host action. A command in flight when reset is applied is abandoned, whatever its word, and none
of its effects appear (R136). -/
def performAction (a : HostAction) (s : State) : Host.Outcome State Fault Refusal :=
  match a with
  | .issue w => issueWord w s
  | .readData r => .next (readData r s)
  | .readValid r => .next (readValid r s)
  | .readStatus => .next (readStatus s)
  | .reset => .next s.applyReset
  | .resetInFlight _ => .next s.applyReset

/-- The host's next action taken from the front of what is pending and performed; with nothing pending
the core keeps its state (R135; log entry 4). -/
def nextAction (s : State) : Host.Outcome State Fault Refusal :=
  match s.pending with
  | [] => .next s
  | a :: rest => performAction a (s.setPending rest)

/-- The word of an opcode-table row made the host's next action. -/
def placeWord (s : State) (w : CommandWord) : State :=
  s.setPending (.issue w :: s.pending)

end Sys2Proof.Machine
end

