-- ==== Sys2Proof/Machine/Step.lean ====
section
/-! DEFINITION. One step of the machine: the host's next action, whole (20_memory.md R45; 92 D1). -/

namespace Sys2Proof.Machine

def step (s : State) : Host.Outcome State Fault Refusal := nextAction s

/-- The state in which the host issues this word next (log entry 11 says how a program comes to run). -/
def State.withFetchWord (s : State) (nbits w : Nat) : State := placeWord s (tableWord nbits w)

end Sys2Proof.Machine
end

