-- ==== Sys2Proof/Certificates/Slice0/Reference.lean ====
section
/-! DEFINITION. The two tables under which 95_test_vectors.md gives numbers: SBOX_SAES (93 G1, from general
knowledge) and SBOX_ID. No step of the machine reads either: the core's own table is `Config.sbox`. -/

namespace Sys2Proof.Statements

/-- SBOX_SAES[0] … SBOX_SAES[F] (93 G1). -/
def referenceEntries : List Nibble :=
  [0x9#4, 0x4#4, 0xA#4, 0xB#4, 0xD#4, 0x1#4, 0x8#4, 0x5#4, 0x6#4, 0x2#4, 0x0#4, 0x3#4, 0xC#4, 0xE#4, 0xF#4, 0x7#4]

/-- The same table read backwards. -/
def referenceInverse : List Nibble :=
  [0xA#4, 0x5#4, 0x9#4, 0xB#4, 0x1#4, 0x7#4, 0x8#4, 0xF#4, 0x6#4, 0x0#4, 0x2#4, 0x3#4, 0xC#4, 0x4#4, 0xD#4, 0xE#4]

/-- SBOX_SAES as a bijection (93 G1; 41_sbox_engine.md R77). -/
def referenceSbox : Sbox where
  toFun n := referenceEntries.getD n.toNat 0#4
  invFun n := referenceInverse.getD n.toNat 0#4
  left_inv := by unfold Function.LeftInverse; decide
  right_inv := by unfold Function.RightInverse Function.LeftInverse; decide

/-- SBOX_ID, the identity. -/
def identitySbox : Sbox := Equiv.refl Nibble

end Sys2Proof.Statements
end

