-- ==== Sys2Proof/Machine/Assembler.lean ====
section
/-! DEFINITION. The assembler of 30_encoding.md R61 to R63: a line of text read, its operands checked, its
command made. It is a tool beside the core; no step of the machine reads text. Log entry 10 says what the
rules leave open about blanks and digits. -/

namespace Sys2Proof.Machine

/-- Why a line is not a command. -/
inductive AsmError where
  /-- An operand is not an unsigned hex or decimal literal. -/
  | badLiteral
  /-- The first word is no mnemonic and no alias. -/
  | unknownMnemonic
  /-- Too many or too few operands, or one out of its range: refused, never truncated (R61). -/
  | badOperands (op : Op)
  deriving DecidableEq, Repr

/-- A letter in lower case: mnemonics are case-insensitive (R61). -/
def lowerCase (c : Char) : Char :=
  if 65 ≤ c.toNat ∧ c.toNat ≤ 90 then Char.ofNat (c.toNat + 32) else c

/-- The mnemonics (R62) and the aliases (R63), in lower case. -/
def mnemonicTable : List (List Char × Op) :=
  [("gfmul".toList, .gfmul), ("subnib".toList, .subnib), ("shiftrows".toList, .shiftrows),
   ("mixcol".toList, .mixcol), ("subbyte".toList, .subbyte), ("addkey".toList, .addkey),
   ("keyexp".toList, .keyexp), ("encrypt".toList, .encrypt)] ++
  [("multiply".toList, .gfmul), ("subnibbles".toList, .subnib), ("mixcolumns".toList, .mixcol),
   ("keyexpansion".toList, .keyexp)]

/-- The operation a mnemonic or alias names, in any case. -/
def lookupMnemonic (name : List Char) : Option Op :=
  (mnemonicTable.find? (·.1 == name.map lowerCase)).map (·.2)

/-- The value of a digit, at most 15. -/
def digitValue (c : Char) : Option Nat :=
  let n := (lowerCase c).toNat
  if 48 ≤ n ∧ n ≤ 57 then some (n - 48)
  else if 97 ≤ n ∧ n ≤ 102 then some (n - 87)
  else none

/-- The digits read in a base, after a value already read. -/
def readDigits (base : Nat) : Nat → List Char → Option Nat
  | acc, [] => some acc
  | acc, c :: cs =>
    match digitValue c with
    | some d => if d < base then readDigits base (base * acc + d) cs else none
    | none => none

/-- An unsigned literal: hex with `0x`, or decimal (R61). -/
def readLiteral : List Char → Option Nat
  | [] => none
  | ['0', 'x'] => none
  | '0' :: 'x' :: ds => readDigits 16 0 ds
  | ds => readDigits 10 0 ds

def isBlank (c : Char) : Bool := c == ' ' || c == '\t'

/-- Blanks taken off both ends. -/
def trimBlanks (cs : List Char) : List Char :=
  ((cs.dropWhile isBlank).reverse.dropWhile isBlank).reverse

/-- The pieces between commas; a text with no comma is one piece. -/
def splitCommas : List Char → List (List Char)
  | [] => [[]]
  | c :: cs =>
    match splitCommas cs with
    | [] => [[c]]
    | piece :: pieces => if c == ',' then [] :: piece :: pieces else (c :: piece) :: pieces

/-- `mnemonic operand {, operand}` (R61), its operands not yet checked. -/
def readSource (line : List Char) : Except AsmError SourceCommand :=
  let text := trimBlanks line
  let name := text.takeWhile (!isBlank ·)
  let operands := (splitCommas (text.dropWhile (!isBlank ·))).mapM (readLiteral ∘ trimBlanks)
  match lookupMnemonic name, operands with
  | none, _ => .error .unknownMnemonic
  | some _, none => .error .badLiteral
  | some op, some vs => .ok ⟨op, vs⟩

/-- The command with these operands, in the order of R57's columns, where their number is right. -/
def buildInstr (op : Op) (operands : List Nat) : Option Instr :=
  match op, operands with
  | .gfmul, [a, b] => some (.gfmul (BitVec.ofNat 4 a) (BitVec.ofNat 4 b))
  | .subnib, [x] => some (.subnib (BitVec.ofNat 16 x))
  | .shiftrows, [x] => some (.shiftrows (BitVec.ofNat 16 x))
  | .mixcol, [x] => some (.mixcol (BitVec.ofNat 16 x))
  | .subbyte, [x] => some (.subbyte (BitVec.ofNat 8 x))
  | .addkey, [x, k] => some (.addkey (BitVec.ofNat 16 x) (BitVec.ofNat 16 k))
  | .keyexp, [key] => some (.keyexp (BitVec.ofNat 16 key))
  | .encrypt, [pt, key] => some (.encrypt (BitVec.ofNat 16 pt) (BitVec.ofNat 16 key))
  | _, _ => none

/-- A checked command (R61): refused unless well formed, so that no operand is ever truncated. -/
def assembleSource (c : SourceCommand) : Except AsmError Instr :=
  match c.wellFormed, buildInstr c.op c.operands with
  | true, some i => .ok i
  | _, _ => .error (.badOperands c.op)

/-- The word a line of assembler stands for (R61, R62). -/
def assembleLine (line : List Char) : Except AsmError CommandWord := do
  let c ← readSource line
  let i ← assembleSource c
  pure (encode i)

end Sys2Proof.Machine
end

