-- ==== Sys2Proof/Machine/Instances.lean ====
section
/-! DEFINITION. Several instances of the core side by side: replicas that share no state (20_memory.md R46;
60_exceptions.md R133). The constants and the S-box table are the same in each. -/

namespace Sys2Proof.Machine

/-- One step of instance `k`; every other instance stays as it is. -/
def stepInstance {n : Nat} (k : Fin n) (cores : Vector State n) :
    Host.Outcome (Vector State n) Fault Refusal :=
  match step cores[k] with
  | .next t => .next (cores.set k t)
  | .fault f => .fault f
  | .refused r => .refused r

end Sys2Proof.Machine
end

