-- ==== Sys2Proof/Safety.lean ====
section
/-! DEFINITION. What counts as a good run of the core (70_reset_and_hazards.md R143, R146). -/

namespace Sys2Proof.Machine

/-- The state in which a run begins: reset, with the host's actions still to happen (R146). -/
def runStart (actions : List HostAction) : State := State.reset.setPending actions

/-- A run: every action performed, one a step (R146). -/
def runActions (actions : List HostAction) : Host.Outcome State Fault Refusal :=
  core.run actions.length (runStart actions)

/-- A state is a successful end when no fault stands (R116, R146). -/
abbrev State.succeeds (s : State) : Prop := s.fault = none

/-- A run succeeds when it ends in a state with no fault (R146). -/
def runSucceeds (actions : List HostAction) : Prop :=
  ∃ t, runActions actions = .next t ∧ t.succeeds

/-- What a run observes: the values its reads returned, in order (R146). -/
def runObserves (actions : List HostAction) (values : List Observation) : Prop :=
  ∃ t, runActions actions = .next t ∧ t.observed = values

/-- The action applies reset (R136). -/
def HostAction.isReset : HostAction → Prop
  | .reset | .resetInFlight _ => True
  | .issue _ | .readData _ | .readValid _ | .readStatus => False

/-- The action issues a word that the core is left to complete. -/
def HostAction.isIssue : HostAction → Prop
  | .issue _ => True
  | .reset | .resetInFlight _ | .readData _ | .readValid _ | .readStatus => False

/-- The action is a host read (10_state.md R25, R29). -/
def HostAction.isRead : HostAction → Prop
  | .readData _ | .readValid _ | .readStatus => True
  | .issue _ | .reset | .resetInFlight _ => False

/-- The host keeps duty (c) of R143 in a state: it does not issue while a fault stands. -/
def State.keepsDuty (s : State) : Prop :=
  ∀ w rest, s.pending = .issue w :: rest → s.fault = none

end Sys2Proof.Machine
end

