-- ==== Sys2Proof/Certificates/Slice0/Obligations.lean ====
section
/-! DEFINITION. The statements for the provers, from the numbered rules of spec/. The definitions before them
say what the rules' words mean over the model; OBLIGATIONS.json lists the statements. -/

open Sys2Proof Sys2Proof.Machine Sys2Proof.Statements

namespace Sys2Proof.Statements

/-- From every state the command answers a next state in which the response registers hold exactly these
values, every register not named holds NONE, and nothing else has changed: completion, result and frame. -/
def answersWith (i : Instr) (writes : List (RespReg × Block)) : Prop :=
  ∀ s : State, ∃ t : State, exec i s = .next t ∧ (∀ r, t.reg r = writes.lookup r) ∧
    t.fault = s.fault ∧ t.pending = s.pending ∧ t.observed = s.observed

/-- Issued with no fault standing, the word raises IllegalCommand with all of R119's effects. -/
def takesIllegalCommand (w : CommandWord) : Prop :=
  ∀ s : State, s.fault = none → ∃ t : State, issueWord w s = .next t ∧ (∀ r, t.reg r = none) ∧
    t.fault = some (.illegalCommand w) ∧ t.status = ⟨1#1, 1#4, w⟩ ∧
    t.pending = s.pending ∧ t.observed = s.observed

/-- Issued with no fault standing, the word runs this command. -/
def runsCommand (w : CommandWord) (i : Instr) : Prop :=
  decode w = .ok i ∧ ∀ s : State, s.fault = none → issueWord w s = exec i s

/-- The words of one opcode: those whose reserved bits are 0 run a command, the others are illegal (R58). -/
def wordsOf (opc : BitVec 8) (reservedZero : Block → Block → Prop) (i : Block → Block → Instr) : Prop :=
  ∀ a b : Block, (reservedZero a b → runsCommand (packWord opc a b) (i a b)) ∧
    (¬ reservedZero a b → takesIllegalCommand (packWord opc a b))

/-- Issued with no fault standing, the word leaves RES with this value. -/
def givesRes (w : CommandWord) (v : Block) : Prop :=
  ∀ s : State, s.fault = none → ∃ t : State, issueWord w s = .next t ∧ t.res = some v

/-- The write sets of R26. -/
def writeSet : Op → List RespReg
  | .gfmul | .subnib | .subbyte | .shiftrows | .mixcol | .addkey => [.res]
  | .keyexp => [.rk0, .rk1, .rk2]
  | .encrypt => [.res, .rk0, .rk1, .rk2, .tr0, .tr1, .tr2, .tr3, .tr4, .tr5, .tr6]

/-- The reserved-zero bits of each operation's words, as a mask over the word (R57). -/
def reservedMask : Op → CommandWord
  | .gfmul => 0x00FFF0FFF0#40
  | .subnib | .shiftrows | .mixcol => 0x000000FFFF#40
  | .subbyte => 0x00FF00FFFF#40
  | .addkey | .encrypt => 0x0000000000#40
  | .keyexp => 0x00FFFF0000#40

/-- What the registers and the fault record say of each other in every state a host can bring about: the
registers are those of one command from reset, or all NONE, and a recorded fault fits them. -/
def responsesCoherent (s : State) : Prop :=
  (∀ w, s.fault = some (.illegalCommand w) → (∀ r, s.reg r = none) ∧ ∃ e, decode w = .error e) ∧
  (∀ r, s.fault = some (.readNoValue r) → s.reg r = none) ∧
  ((∀ r, s.reg r = none) ∨ ∃ i t, exec i State.reset = .next t ∧ ∀ r, s.reg r = t.reg r)

/-- Any trace register that holds a value belongs to one whole encryption, all of which is on view (R106). -/
def traceOfOneEncryption (s : State) : Prop :=
  (∃ r ∈ [RespReg.tr0, .tr1, .tr2, .tr3, .tr4, .tr5, .tr6], s.reg r ≠ none) →
    ∃ key st1 k1 k2 : Block, s.rk0 = some key ∧ s.rk1 = some k1 ∧ s.rk2 = some k2 ∧
      keyExp Config.sbox key = ⟨key, k1, k2⟩ ∧ s.tr0 = some st1 ∧
      s.tr1 = some (subNib Config.sbox st1) ∧
      s.tr2 = some (shiftRows (subNib Config.sbox st1)) ∧
      s.tr3 = some (mixCol (shiftRows (subNib Config.sbox st1))) ∧
      ∃ st5 : Block, st5 = mixCol (shiftRows (subNib Config.sbox st1)) ^^^ k1 ∧ s.tr4 = some st5 ∧
        s.tr5 = some (subNib Config.sbox st5) ∧ s.tr6 = some (shiftRows (subNib Config.sbox st5)) ∧
        s.res = some (shiftRows (subNib Config.sbox st5) ^^^ k2)

/-- The polynomial over GF(2) whose coefficient of `x^i` is bit `i` of the element (R65). -/
noncomputable def fieldPoly (a : Nibble) : Polynomial (ZMod 2) :=
  ∑ i ∈ Finset.range 4, if a.getLsbD i then Polynomial.X ^ i else 0

/-- `x^4 + x + 1` (R65). -/
noncomputable def reductionPoly : Polynomial (ZMod 2) := Polynomial.X ^ 4 + Polynomial.X + 1

/-- A map applied to each nibble of a block alike (R89). -/
def mapNibbles (f : Nibble → Nibble) (x : Block) : Block :=
  joinNibbles (f (nib x 3)) (f (nib x 2)) (f (nib x 1)) (f (nib x 0))

/-- The state after a word is issued, where there is one. -/
def issued (w : CommandWord) (s : State) : Option State :=
  match issueWord w s with
  | .next t => some t
  | .fault _ => none
  | .refused _ => none

/-- The host's sequence of R114: each result is read and carried into the next word. The answer is the
results of its eight commands after KEYEXP, in order. -/
def hostSequence (pt key : Block) (s : State) : Option (List Block) := do
  let s0 ← issued (encode (.keyexp key)) s
  let k0 ← s0.rk0
  let k1 ← s0.rk1
  let k2 ← s0.rk2
  let s1 ← issued (encode (.addkey pt k0)) s0
  let x1 ← s1.res
  let s2 ← issued (encode (.subnib x1)) s1
  let x2 ← s2.res
  let s3 ← issued (encode (.shiftrows x2)) s2
  let x3 ← s3.res
  let s4 ← issued (encode (.mixcol x3)) s3
  let x4 ← s4.res
  let s5 ← issued (encode (.addkey x4 k1)) s4
  let x5 ← s5.res
  let s6 ← issued (encode (.subnib x5)) s5
  let x6 ← s6.res
  let s7 ← issued (encode (.shiftrows x6)) s6
  let x7 ← s7.res
  let s8 ← issued (encode (.addkey x7 k2)) s7
  let x8 ← s8.res
  pure [x1, x2, x3, x4, x5, x6, x7, x8]

end Sys2Proof.Statements

/-! ### The commands, rule by rule -/

/-- 40_gf_multiplier.md R74, whole. -/
def Obligations.GfmulMultipliesFieldElements : Prop :=
  wordsOf 0x01#8 (fun a b => a.extractLsb' 4 12 = 0#12 ∧ b.extractLsb' 4 12 = 0#12)
    (fun a b => .gfmul (a.extractLsb' 0 4) (b.extractLsb' 0 4)) ∧
  (∀ a b : Nibble, answersWith (.gfmul a b) [(.res, (gfMul a b).setWidth 16)]) ∧
  (∀ a b : Nibble, (a = 0#4 ∨ b = 0#4 → gfMul a b = 0#4) ∧ gfMul 1#4 b = b ∧ gfMul a 1#4 = a ∧
    ((gfMul a b).setWidth 16).extractLsb' 4 12 = 0#12) ∧
  gfMul 0xF#4 0xF#4 = 0xA#4 ∧ givesRes 0x0100040003#40 0x000C#16

/-- 41_sbox_engine.md R82, whole. The table of the third and fourth lines is any at all; the last line is
the rule's example under SBOX_SAES. -/
def Obligations.SubnibSubstitutesEveryNibble : Prop :=
  wordsOf 0x02#8 (fun _ b => b = 0#16) (fun a _ => .subnib a) ∧
  (∀ x : Block, answersWith (.subnib x) [(.res, subNib Config.sbox x)]) ∧
  (∀ (sbox : Sbox) (x : Block) (i j : Fin 4), nib x i = nib x j →
    nib (subNib sbox x) i = nib (subNib sbox x) j) ∧
  (∀ sbox : Sbox, subNib sbox 0#16 = joinNibbles (sbox 0#4) (sbox 0#4) (sbox 0#4) (sbox 0#4) ∧
    subNib sbox 0x1234#16 = joinNibbles (sbox 1#4) (sbox 2#4) (sbox 3#4) (sbox 4#4)) ∧
  (∃ (sbox : Sbox) (n : Nibble), sbox n = n ∧ subNib sbox (joinNibbles n n n n) = joinNibbles n n n n) ∧
  (∀ x : Block, subNib identitySbox x = x) ∧
  subNib referenceSbox 0x1234#16 = 0x4ABD#16

/-- 42_permutation_mixing.md R90, whole. -/
def Obligations.ShiftrowsSwapsTwoNibbles : Prop :=
  wordsOf 0x03#8 (fun _ b => b = 0#16) (fun a _ => .shiftrows a) ∧
  (∀ x : Block, answersWith (.shiftrows x) [(.res, shiftRows x)]) ∧
  (∀ x : Block, nib (shiftRows x) 3 = nib x 1 ∧ nib (shiftRows x) 2 = nib x 2 ∧
    nib (shiftRows x) 1 = nib x 3 ∧ nib (shiftRows x) 0 = nib x 0 ∧
    (nib x 1 = nib x 3 → shiftRows x = x)) ∧
  shiftRows 0x0010#16 = 0x1000#16 ∧ shiftRows 0x1000#16 = 0x0010#16 ∧
  givesRes 0x0312340000#40 0x3214#16

/-- 42_permutation_mixing.md R95, whole, with the result written out as R91 does. -/
def Obligations.MixcolMixesBothColumns : Prop :=
  wordsOf 0x04#8 (fun _ b => b = 0#16) (fun a _ => .mixcol a) ∧
  (∀ x : Block, answersWith (.mixcol x) [(.res, mixCol x)]) ∧
  (∀ x : Block, nib (mixCol x) 0 = nib x 0 ^^^ gfMul 4#4 (nib x 1) ∧
    nib (mixCol x) 1 = gfMul 4#4 (nib x 0) ^^^ nib x 1 ∧
    nib (mixCol x) 2 = nib x 2 ^^^ gfMul 4#4 (nib x 3) ∧
    nib (mixCol x) 3 = gfMul 4#4 (nib x 2) ^^^ nib x 3) ∧
  mixCol 0x0000#16 = 0x0000#16 ∧ mixCol 0x0001#16 = 0x0041#16 ∧ mixCol 0x0010#16 = 0x0014#16 ∧
  mixCol 0x0100#16 = 0x4100#16 ∧ mixCol 0x1000#16 = 0x1400#16 ∧ mixCol 0xFFFF#16 = 0x6666#16 ∧
  mixCol 0xF0F0#16 = 0xF9F9#16 ∧
  (∀ n : Nibble, ∃ p q : Nibble, mixCol (joinNibbles 0#4 0#4 0#4 n) = joinNibbles 0#4 0#4 p n ∧
    mixCol (joinNibbles 0#4 0#4 n 0#4) = joinNibbles 0#4 0#4 n q ∧
    mixCol (joinNibbles 0#4 n 0#4 0#4) = joinNibbles p n 0#4 0#4 ∧
    mixCol (joinNibbles n 0#4 0#4 0#4) = joinNibbles n q 0#4 0#4) ∧
  givesRes 0x0412340000#40 0x9608#16

/-- 41_sbox_engine.md R85, whole. -/
def Obligations.SubbyteSubstitutesBothNibbles : Prop :=
  wordsOf 0x05#8 (fun a b => a.extractLsb' 8 8 = 0#8 ∧ b = 0#16) (fun a _ => .subbyte (a.extractLsb' 0 8)) ∧
  (∀ x : Byte, answersWith (.subbyte x) [(.res, (subByte Config.sbox x).setWidth 16)]) ∧
  (∀ (sbox : Sbox) (x : Byte), subByte sbox x = joinByte (sbox (hiNibble x)) (sbox (loNibble x)) ∧
    ((subByte sbox x).setWidth 16).extractLsb' 8 8 = 0#8) ∧
  (∀ sbox : Sbox, subByte sbox 0x00#8 = joinByte (sbox 0#4) (sbox 0#4) ∧
    subByte sbox 0xFF#8 = joinByte (sbox 0xF#4) (sbox 0xF#4) ∧
    subByte sbox 0xCD#8 = joinByte (sbox 0xC#4) (sbox 0xD#4)) ∧
  (subByte referenceSbox 0xCD#8).setWidth 16 = 0x00CE#16

/-- 42_permutation_mixing.md R97, whole. -/
def Obligations.AddkeyXorsTheRoundKey : Prop :=
  wordsOf 0x06#8 (fun _ _ => True) (fun a b => .addkey a b) ∧
  (∀ x k : Block, answersWith (.addkey x k) [(.res, x ^^^ k)]) ∧
  (∀ x k : Block, addKey x 0#16 = x ∧ addKey x x = 0#16 ∧ addKey x 0xFFFF#16 = ~~~x ∧
    addKey (addKey x k) k = x) ∧
  givesRes 0x061234ABCD#40 0xB9F9#16

/-- 43_key_schedule.md R105, whole, with the words written out as R99 does. -/
def Obligations.KeyexpExpandsTheKey : Prop :=
  wordsOf 0x07#8 (fun a _ => a = 0#16) (fun _ b => .keyexp b) ∧
  (∀ key : Block, answersWith (.keyexp key) [(.rk0, (keyExp Config.sbox key).k0),
    (.rk1, (keyExp Config.sbox key).k1), (.rk2, (keyExp Config.sbox key).k2)]) ∧
  (∀ (sbox : Sbox) (key : Block) (w0 w1 w2 w3 w4 w5 : Byte), key = w0 ++ w1 →
    w2 = w0 ^^^ 0x80#8 ^^^ subByte sbox w1 → w3 = w2 ^^^ w1 →
    w4 = w2 ^^^ 0x30#8 ^^^ subByte sbox w3 → w5 = w4 ^^^ w3 →
    keyExp sbox key = ⟨key, w2 ++ w3, w4 ++ w5⟩) ∧
  (∀ sbox : Sbox, (keyExp sbox 0#16).k0 = 0#16 ∧
    (keyExp sbox 0#16).k1 = joinBytes (0x80#8 ^^^ subByte sbox 0#8) (0x80#8 ^^^ subByte sbox 0#8)) ∧
  (∀ (key : Block) (s t : State), s.fault = none → exec (.keyexp key) s = .next t →
    (readData .res t).fault = some (.readNoValue .res)) ∧
  keyExp referenceSbox 0xABCD#16 = ⟨0xABCD#16, 0xE528#16, 0x735B#16⟩

/-- 44_encryption_pipeline.md R113, whole. -/
def Obligations.EncryptRunsTheWholePipeline : Prop :=
  wordsOf 0x08#8 (fun _ _ => True) (fun a b => .encrypt a b) ∧
  (∀ (pt key k1 k2 st1 st2 st3 st4 st5 st6 st7 : Block), keyExp Config.sbox key = ⟨key, k1, k2⟩ →
    st1 = pt ^^^ key → st2 = subNib Config.sbox st1 → st3 = shiftRows st2 → st4 = mixCol st3 →
    st5 = st4 ^^^ k1 → st6 = subNib Config.sbox st5 → st7 = shiftRows st6 →
    answersWith (.encrypt pt key) [(.res, st7 ^^^ k2), (.rk0, key), (.rk1, k1), (.rk2, k2),
      (.tr0, st1), (.tr1, st2), (.tr2, st3), (.tr3, st4), (.tr4, st5), (.tr5, st6), (.tr6, st7)]) ∧
  (∀ (sbox : Sbox) (key : Block), (keyExp sbox key).k0 = key) ∧
  (∀ (sbox : Sbox) (pt key : Block), (encryptBlock sbox pt key).ct =
    shiftRows (subNib sbox (encryptBlock sbox pt key).st5) ^^^ (keyExp sbox key).k2) ∧
  (∀ (sbox : Sbox) (key : Block), (encryptBlock sbox key key).st1 = 0#16) ∧
  (∀ sbox : Sbox, (encryptBlock sbox 0x1234#16 0xABCD#16).st1 = 0xB9F9#16) ∧
  encryptBlock referenceSbox 0x1234#16 0xABCD#16 =
    ⟨0x5513#16, ⟨0xABCD#16, 0xE528#16, 0x735B#16⟩, 0xB9F9#16, 0x3272#16, 0x7232#16, 0xFDBE#16,
      0x1896#16, 0x4628#16, 0x2648#16⟩

/-- 10_state.md R26: the write sets, and that the registers depend on the command alone. -/
def Obligations.CommandsWriteExactlyTheirWriteSets : Prop :=
  ∀ (i : Instr) (s s' : State), ∃ t t' : State, exec i s = .next t ∧ exec i s' = .next t' ∧
    (∀ r, t.reg r = t'.reg r) ∧ ∀ r, t.reg r ≠ none ↔ r ∈ writeSet i.op

/-- 60_exceptions.md R121, from every state. -/
def Obligations.DecodedCommandsNeverFault : Prop :=
  ∀ (i : Instr) (s : State), ∃ t : State, exec i s = .next t ∧ t.fault = s.fault

/-- 10_state.md R142's hazard: after a further command, a register outside its write set is lost, and a read
of it gives no value. -/
def Obligations.ResultsAreLostAtTheNextCommand : Prop :=
  ∀ (i : Instr) (s t : State) (r : RespReg), s.fault = none → exec i s = .next t → r ∉ writeSet i.op →
    t.reg r = none ∧ (readData r t).observed = t.observed ∧
      (readData r t).fault = some (.readNoValue r)

/-! ### The step, the host's actions and reset -/

/-- A step runs the command that the host's next word decodes to, on the state with that action taken. -/
def Obligations.StepRunsTheDecodedCommand : Prop :=
  (∀ (s : State) (w : CommandWord) (rest : List HostAction) (i : Instr), s.fault = none →
    s.pending = .issue w :: rest → decode w = .ok i → i.wellFormed = true ∧
      step s = exec i (s.setPending rest)) ∧
  (∀ s : State, s.pending = [] → step s = .next s)

/-- The word of a command, placed as the opcode table numbers it, is what the next step runs. -/
def Obligations.PlacedWordRunsNext : Prop :=
  ∀ (s : State) (i : Instr), s.fault = none →
    step (s.withFetchWord 40 (encode i).toNat) = exec i s ∧ decodeTableWord 40 (encode i).toNat = some i

/-- 20_memory.md R45 in this model's form: each step takes one action, the first, and adds at most one
observation, a read's. -/
def Obligations.StepTakesOneActionInOrder : Prop :=
  ∀ (s t : State) (a : HostAction) (rest : List HostAction), s.pending = a :: rest → step s = .next t →
    t.pending = rest ∧ (t.observed = s.observed ∨ a.isRead ∧ ∃ o, t.observed = s.observed ++ [o])

/-- 70_reset_and_hazards.md R137, and R36's table at power-on. The host's fields are the model's choice
(log entry 4): they stay. -/
def Obligations.ResetClearsEveryRegisterAndFault : Prop :=
  (∀ (s : State) (rest : List HostAction), s.pending = .reset :: rest → ∃ t : State, step s = .next t ∧
    (∀ r, t.reg r = none) ∧ t.status = ⟨0#1, 0#4, 0#40⟩ ∧ t.fault = none ∧
    t.pending = rest ∧ t.observed = s.observed) ∧
  (∀ r, State.reset.reg r = none) ∧ State.reset.status = ⟨0#1, 0#4, 0#40⟩ ∧ State.reset.fault = none ∧
  (∀ (s t : State) (a : HostAction) (rest : List HostAction), s.pending = a :: rest → step s = .next t →
    s.fault ≠ none → t.fault = none → a.isReset)

/-- 70_reset_and_hazards.md R136: reset is one step, from any state, and abandons a command in flight. -/
def Obligations.ResetInFlightAbandonsTheCommand : Prop :=
  ∀ (s : State) (w : CommandWord) (rest : List HostAction), s.pending = .resetInFlight w :: rest →
    (∃ t : State, step s = .next t ∧ (∀ r, t.reg r = none) ∧ t.fault = none ∧ t.pending = rest) ∧
      step s = step (s.setPending (.reset :: rest))

/-! ### Faults, reads and STATUS -/

/-- 60_exceptions.md R119, on a step. -/
def Obligations.IllegalWordClearsResponsesAndRecordsTheWord : Prop :=
  ∀ (s : State) (w : CommandWord) (rest : List HostAction), s.fault = none →
    s.pending = .issue w :: rest → (∃ e, decode w = .error e) → ∃ t : State, step s = .next t ∧
      (∀ r, t.reg r = none) ∧ t.fault = some (.illegalCommand w) ∧ t.status = ⟨1#1, 1#4, w⟩ ∧
      t.pending = rest ∧ t.observed = s.observed

/-- 60_exceptions.md R118: IllegalCommand is raised in exactly two ways, and by no command that decoded. -/
def Obligations.IllegalCommandHasExactlyTwoCauses : Prop :=
  (∀ w : CommandWord, (∃ e, decode w = .error e) ↔
    (opcField w = 0x00#8 ∨ 9 ≤ (opcField w).toNat) ∨
      ∃ op : Op, opcField w = op.opcode ∧ w &&& reservedMask op ≠ 0#40) ∧
  (∀ (w : CommandWord) (s : State), s.fault = none → ∃ t : State, issueWord w s = .next t ∧
    ((∃ e, decode w = .error e) → t.fault = some (.illegalCommand w)) ∧
    ((∃ i, decode w = .ok i) → t.fault = none))

/-- 60_exceptions.md R116: the first fault stays until reset. -/
def Obligations.FirstFaultStaysUntilReset : Prop :=
  ∀ (s t : State) (f : FaultRecord), s.fault = some f → step s = .next t →
    t.fault = some f ∨ t.fault = none ∧ ∃ a rest, s.pending = a :: rest ∧ a.isReset

/-- 60_exceptions.md R123, the model's half: while a fault stands an issue has no step; reads go on and
change no register and no fault. -/
def Obligations.FaultedCoreAcceptsNoWord : Prop :=
  ∀ (s : State) (f : FaultRecord), s.fault = some f →
    (∀ w rest, s.pending = .issue w :: rest → step s = .fault (.issueWhileFaulted f)) ∧
    (∀ a rest, s.pending = a :: rest → a.isRead → ∃ t : State, step s = .next t ∧
      (∀ r, t.reg r = s.reg r) ∧ t.fault = some f ∧ t.status = s.status)

/-- A step answers a next state exactly when the host does not issue over a standing fault: its duty (c) in
70_reset_and_hazards.md R143. -/
def Obligations.StepStopsOnlyOnIssueOverAFault : Prop :=
  ∀ s : State, (∃ t : State, step s = .next t) ↔ s.keepsDuty

/-- 60_exceptions.md R120: reading a register's data, with and without a value. -/
def Obligations.ReadingNoneRecordsReadNoValue : Prop :=
  ∀ (s : State) (r : RespReg) (rest : List HostAction), s.pending = .readData r :: rest →
    ∃ t : State, step s = .next t ∧ (∀ r', t.reg r' = s.reg r') ∧ t.status = s.status ∧ t.pending = rest ∧
      (∀ v, s.reg r = some v → t.fault = s.fault ∧ t.observed = s.observed ++ [.data r v]) ∧
      (s.reg r = none → t.observed = s.observed ∧
        (s.fault = none → t.fault = some (.readNoValue r)) ∧
        ∀ f, s.fault = some f → t.fault = some f)

/-- 10_state.md R29: STATUS is the projection of the fault record; reading it never faults. -/
def Obligations.StatusIsTheProjectionOfTheFaultRecord : Prop :=
  (∀ s : State, (∀ w, s.fault = some (.illegalCommand w) → s.status = ⟨1#1, 1#4, w⟩) ∧
    (∀ r, s.fault = some (.readNoValue r) → s.status = ⟨0#1, 0#4, 0#40⟩) ∧
    (s.fault = none → s.status = ⟨0#1, 0#4, 0#40⟩)) ∧
  (∀ (s : State) (rest : List HostAction), s.pending = .readStatus :: rest → ∃ t : State,
    step s = .next t ∧ (∀ r, t.reg r = s.reg r) ∧ t.fault = s.fault ∧
      t.observed = s.observed ++ [.status s.status])

/-- 10_state.md R25: a valid bit is read without a fault, and no read changes a register. -/
def Obligations.ReadsChangeNoRegister : Prop :=
  (∀ (s : State) (r : RespReg) (rest : List HostAction), s.pending = .readValid r :: rest → ∃ t : State,
    step s = .next t ∧ t.fault = s.fault ∧ t.observed = s.observed ++ [.valid r (s.reg r).isSome]) ∧
  (∀ (s : State) (a : HostAction) (rest : List HostAction), s.pending = a :: rest → a.isRead →
    ∃ t : State, step s = .next t ∧ (∀ r, t.reg r = s.reg r) ∧ t.status = s.status) ∧
  (∀ (s t : State) (a : HostAction) (rest : List HostAction) (r : RespReg), s.pending = a :: rest →
    step s = .next t → t.reg r ≠ s.reg r → a.isIssue ∨ a.isReset)

/-! ### Invariants and isolation -/

/-- Every step keeps the registers those of one command, and the fault record true to them (R26, R116). -/
def Obligations.StepKeepsResponsesCoherent : Prop :=
  ∀ s t : State, responsesCoherent s → step s = .next t → responsesCoherent t

/-- Every step keeps the trace the trace of one whole encryption (R106, R107). -/
def Obligations.StepKeepsTraceOfOneEncryption : Prop :=
  ∀ s t : State, traceOfOneEncryption s → step s = .next t → traceOfOneEncryption t

/-- Both invariants hold at reset, and so at the start of every run. -/
def Obligations.InvariantsHoldAtReset : Prop :=
  ∀ actions : List HostAction, responsesCoherent (runStart actions) ∧ traceOfOneEncryption (runStart actions)

/-- Nothing an earlier command left can be learned from a later one's responses (R26, R111). -/
def Obligations.ResponsesIgnoreEarlierState : Prop :=
  ∀ (w : CommandWord) (s s' t t' : State), s.fault = s'.fault → issueWord w s = .next t →
    issueWord w s' = .next t' → (∀ r, t.reg r = t'.reg r) ∧ t.fault = t'.fault ∧ t.status = t'.status

/-- 20_memory.md R43: issuing a command's word twice leaves the same response registers. -/
def Obligations.IssuingTwiceLeavesTheSameResponses : Prop :=
  ∀ (i : Instr) (s : State), s.fault = none → ∃ t t' : State, issueWord (encode i) s = .next t ∧
    issueWord (encode i) t = .next t' ∧ ∀ r, t'.reg r = t.reg r

/-- 60_exceptions.md R133: instances share no state. -/
def Obligations.InstancesShareNoState : Prop :=
  ∀ (n : Nat) (cores cores' : Vector State n) (k j : Fin n), stepInstance k cores = .next cores' →
    step cores[k] = .next cores'[k] ∧ (j ≠ k → cores'[j] = cores[j])

/-! ### Encoding and assembly -/

/-- Decoding the word of a command gives that command, for every command and every operand. -/
def Obligations.DecodeUndoesEncode : Prop := ∀ i : Instr, decode (encode i) = .ok i

/-- Every word that decodes is the word of the command it decodes to: one command, one word. -/
def Obligations.EveryLegalWordIsTheWordOfItsCommand : Prop :=
  ∀ (w : CommandWord) (i : Instr), decode w = .ok i → encode i = w

/-- 30_encoding.md R53 and R54: the decoder and the opcode table's mask and match test agree on every
word, and no word is selected by two rows. -/
def Obligations.DecoderAgreesWithTheOpcodeTable : Prop :=
  (∀ w : CommandWord, (∃ i, decode w = .ok i) ↔ legalWord w = true) ∧
  (∀ (w : CommandWord) (i : Instr), decode w = .ok i → ∀ row ∈ opcodeTable,
    row.selects w = true ↔ row.op = i.op) ∧
  (∀ (w : CommandWord) (row row' : OpcodeRow), row ∈ opcodeTable → row' ∈ opcodeTable →
    row.selects w = true → row'.selects w = true → row = row') ∧
  (∀ row ∈ opcodeTable, row.mask &&& 0xFF00000000#40 = 0xFF00000000#40)

/-- 20_memory.md R39: a word carried as bytes, most significant first, and a response, high byte first. -/
def Obligations.BytesCarryTheWordMostSignificantFirst : Prop :=
  (∀ (i : Instr) (rest : List Byte), decodeBytes (encodeBytes i ++ rest) = .ok (i, rest)) ∧
  (∀ (opc ah al bh bl : Byte), bytesOfWord (opc ++ (ah ++ al) ++ (bh ++ bl)) = [opc, ah, al, bh, bl]) ∧
  (∀ hi lo : Byte, bytesOfResponse (hi ++ lo) = [hi, lo]) ∧
  (∀ bs : List Byte, bs.length < 5 → decodeBytes bs = .error (.truncated bs.length))

/-- 30_encoding.md R62: the word of each command, as a number. -/
def Obligations.WordsFollowTheSyntaxTable : Prop :=
  (∀ a b : Nibble, (encode (.gfmul a b)).toNat = 0x0100000000 + 0x10000 * a.toNat + b.toNat) ∧
  (∀ x : Block, (encode (.subnib x)).toNat = 0x0200000000 + 0x10000 * x.toNat) ∧
  (∀ x : Block, (encode (.shiftrows x)).toNat = 0x0300000000 + 0x10000 * x.toNat) ∧
  (∀ x : Block, (encode (.mixcol x)).toNat = 0x0400000000 + 0x10000 * x.toNat) ∧
  (∀ x : Byte, (encode (.subbyte x)).toNat = 0x0500000000 + 0x10000 * x.toNat) ∧
  (∀ x k : Block, (encode (.addkey x k)).toNat = 0x0600000000 + 0x10000 * x.toNat + k.toNat) ∧
  (∀ key : Block, (encode (.keyexp key)).toNat = 0x0700000000 + key.toNat) ∧
  (∀ pt key : Block, (encode (.encrypt pt key)).toNat = 0x0800000000 + 0x10000 * pt.toNat + key.toNat)

/-- 30_encoding.md R64: the worked encodings, as lines of assembler and as words. -/
def Obligations.WorkedEncodingsDecode : Prop :=
  (assembleLine "gfmul 0x4, 0x3".toList = .ok 0x0100040003#40 ∧
    decode 0x0100040003#40 = .ok (.gfmul 0x4#4 0x3#4)) ∧
  (assembleLine "subnib 0x1234".toList = .ok 0x0212340000#40 ∧
    decode 0x0212340000#40 = .ok (.subnib 0x1234#16)) ∧
  (assembleLine "subbyte 0xCD".toList = .ok 0x0500CD0000#40 ∧
    decode 0x0500CD0000#40 = .ok (.subbyte 0xCD#8)) ∧
  (assembleLine "keyexp 0xABCD".toList = .ok 0x070000ABCD#40 ∧
    decode 0x070000ABCD#40 = .ok (.keyexp 0xABCD#16)) ∧
  (assembleLine "encrypt 0x1234, 0xABCD".toList = .ok 0x081234ABCD#40 ∧
    decode 0x081234ABCD#40 = .ok (.encrypt 0x1234#16 0xABCD#16)) ∧
  decode 0x0000000000#40 = .error (.reservedOpcode 0x00#8) ∧
  decode 0x0212340001#40 = .error (.reservedBits .subnib)

/-- 30_encoding.md R61: the assembler takes exactly the commands whose operands are in range, and never
truncates one. -/
def Obligations.AssemblerNeverTruncates : Prop :=
  (∀ i : Instr, assembleSource i.source = .ok i) ∧
  (∀ (c : SourceCommand) (i : Instr), assembleSource c = .ok i → i.source = c) ∧
  (∀ c : SourceCommand, c.wellFormed = false → assembleSource c = .error (.badOperands c.op))

/-! ### The arithmetic -/

/-- 40_gf_multiplier.md R71 and R72: the laws of the field. -/
def Obligations.GfMulObeysTheFieldLaws : Prop :=
  (∀ a b : Nibble, gfMul a b = gfMul b a) ∧ (∀ a : Nibble, gfMul a 0#4 = 0#4 ∧ gfMul a 1#4 = a) ∧
  (∀ a b c : Nibble, gfMul (gfMul a b) c = gfMul a (gfMul b c)) ∧
  (∀ a b c : Nibble, gfMul a (b ^^^ c) = gfMul a b ^^^ gfMul a c) ∧
  (∀ a b : Nibble, gfMul a b = 0#4 ↔ a = 0#4 ∨ b = 0#4) ∧
  (∀ a : Nibble, a ≠ 0#4 → ∃! c : Nibble, gfMul a c = 1#4)

/-- 40_gf_multiplier.md R69: the multiplier computes the product of polynomials over GF(2) modulo
x^4 + x + 1, bit i being the coefficient of x^i (R65). -/
def Obligations.GfMulIsThePolynomialProduct : Prop :=
  ∀ a b : Nibble, fieldPoly (gfMul a b) = (fieldPoly a * fieldPoly b).modByMonic reductionPoly

/-- 40_gf_multiplier.md R68: reduction bounds the multiplicand after every iteration, and the final mask
changes no bit. -/
def Obligations.ReductionBoundsTheMultiplicand : Prop :=
  (∀ (n : Nat) (g : GfmRegs), (gfmIterations (n + 1) g).aa.getLsbD 4 = false) ∧
  (∀ a b : Nibble, gfMul a b = (gfmIterations 4 ⟨0#4, a.setWidth 5, b⟩).p) ∧
  (∀ aa : BitVec 5, aa.getLsbD 4 = true → aa ^^^ 0x13#5 =
    (aa &&& 0b01111#5) ^^^ 0b00011#5)

/-- 41_sbox_engine.md R81. -/
def Obligations.SubNibIsABijectionNibbleByNibble : Prop :=
  ∀ sbox : Sbox, (∀ (x : Block) (i : Fin 4), nib (subNib sbox x) i = sbox (nib x i)) ∧
    Function.Bijective (subNib sbox)

/-- 41_sbox_engine.md R84. -/
def Obligations.SubNibIsSubByteOnBothBytes : Prop :=
  ∀ sbox : Sbox, (∀ x : Block, subNib sbox x =
      subByte sbox (x.extractLsb' 8 8) ++ subByte sbox (x.extractLsb' 0 8)) ∧
    Function.Bijective (subByte sbox)

/-- 42_permutation_mixing.md R89. -/
def Obligations.ShiftRowsIsAnInvolutionOfNibbles : Prop :=
  (∀ x : Block, shiftRows (shiftRows x) = x) ∧
  (∀ (f : Nibble → Nibble) (x : Block), shiftRows (mapNibbles f x) = mapNibbles f (shiftRows x)) ∧
  (∀ (sbox : Sbox) (x : Block), shiftRows (subNib sbox x) = subNib sbox (shiftRows x))

/-- 42_permutation_mixing.md R92 and R93: mixing is linear and keeps the columns apart. -/
def Obligations.MixColIsLinearColumnByColumn : Prop :=
  (∀ x y : Block, mixCol (x ^^^ y) = mixCol x ^^^ mixCol y) ∧ mixCol 0#16 = 0#16 ∧
  (∀ x y : Block, nib x 0 = nib y 0 → nib x 1 = nib y 1 →
    nib (mixCol x) 0 = nib (mixCol y) 0 ∧ nib (mixCol x) 1 = nib (mixCol y) 1) ∧
  (∀ x y : Block, nib x 2 = nib y 2 → nib x 3 = nib y 3 →
    nib (mixCol x) 2 = nib (mixCol y) 2 ∧ nib (mixCol x) 3 = nib (mixCol y) 3)

/-- 42_permutation_mixing.md R94: mixing twice multiplies every nibble by 2. -/
def Obligations.MixingTwiceDoublesEveryNibble : Prop :=
  (∀ (x : Block) (i : Fin 4), nib (mixCol (mixCol x)) i = gfMul 2#4 (nib x i)) ∧
  (∀ x : Block, mixCol (mixCol x) = x ↔ x = 0#16) ∧
  (1#4 ^^^ gfMul 4#4 4#4 = 2#4 ∧ 4#4 ^^^ 4#4 = 0#4 ∧ gfMul 4#4 4#4 = 3#4)

/-- 43_key_schedule.md R104 and the last sentence of R101. -/
def Obligations.ZeroKeyScenarioAndFirstRoundKey : Prop :=
  (∀ sbox : Sbox, (keyExp sbox 0#16).k0 = 0#16 ∧
    (keyExp sbox 0#16).k1 = (0x80#8 ^^^ subByte sbox 0#8) ++ (0x80#8 ^^^ subByte sbox 0#8)) ∧
  (∀ (sbox : Sbox) (key : Block), (keyWords sbox key).w3 = (keyWords sbox key).w2 ↔
    key.extractLsb' 0 8 = 0#8) ∧
  (∀ (sbox : Sbox) (key : Block), (keyExp sbox key).k0 = key)

/-- 44_encryption_pipeline.md R106, R108 and R109: the eight stages in order, one column mixing among them,
and the states they produce are those of the encryption. -/
def Obligations.EncryptIsTheEightStagePipeline : Prop :=
  pipelineStages = [.keyMix 0, .substitute, .shift, .mix, .keyMix 1, .substitute, .shift, .keyMix 2] ∧
  pipelineStages.count .mix = 1 ∧
  ∀ (sbox : Sbox) (pt key : Block), ∃ e : Encryption, encryptBlock sbox pt key = e ∧
    runStages sbox (keyExp sbox key) pipelineStages pt =
      [e.st1, e.st2, e.st3, e.st4, e.st5, e.st6, e.st7, e.ct]

/-- 44_encryption_pipeline.md R112: for each key, encryption is a bijection, whatever bijection SBOX is. -/
def Obligations.EncryptionIsABijectionForEachKey : Prop :=
  ∀ (sbox : Sbox) (key : Block), Function.Bijective (fun pt => (encryptBlock sbox pt key).ct) ∧
    Function.Bijective (subNib sbox) ∧ Function.Bijective shiftRows ∧ Function.Bijective mixCol ∧
    Function.Bijective (fun x => addKey x key)

/-- 44_encryption_pipeline.md R114: the host's sequence of eight commands, each result read and carried into
the next word, yields the trace of ENCRYPT in order and then its ciphertext. -/
def Obligations.HostSequenceComputesTheSameEncryption : Prop :=
  ∀ (s : State) (pt key : Block), s.fault = none → ∃ (t : State) (xs : List Block),
    issueWord (encode (.encrypt pt key)) s = .next t ∧ hostSequence pt key s = some xs ∧
      xs.map some = [t.tr0, t.tr1, t.tr2, t.tr3, t.tr4, t.tr5, t.tr6, t.res]
end

