-- ==== Sys2Proof/Laws/Encoding.lean ====
section
/-! SUPPORT. The three fields of a packed word, and the word packed again from its fields (30_encoding.md R55). -/

namespace Sys2Proof

@[simp] theorem opcField_packWord (opc : BitVec 8) (a b : BitVec 16) :
    opcField (packWord opc a b) = opc := by
  apply BitVec.eq_of_getLsbD_eq
  intro i hi
  simp only [opcField, packWord, BitVec.getLsbD_extractLsb', BitVec.getLsbD_append]
  grind

@[simp] theorem fieldA_packWord (opc : BitVec 8) (a b : BitVec 16) :
    fieldA (packWord opc a b) = a := by
  apply BitVec.eq_of_getLsbD_eq
  intro i hi
  simp only [fieldA, packWord, BitVec.getLsbD_extractLsb', BitVec.getLsbD_append]
  grind

@[simp] theorem fieldB_packWord (opc : BitVec 8) (a b : BitVec 16) :
    fieldB (packWord opc a b) = b := by
  apply BitVec.eq_of_getLsbD_eq
  intro i hi
  simp only [fieldB, packWord, BitVec.getLsbD_extractLsb', BitVec.getLsbD_append]
  grind

/-- A word is its three fields. -/
theorem packWord_fields (w : CommandWord) : packWord (opcField w) (fieldA w) (fieldB w) = w := by
  apply BitVec.eq_of_getLsbD_eq
  intro i hi
  simp only [opcField, fieldA, fieldB, packWord, BitVec.getLsbD_extractLsb', BitVec.getLsbD_append]
  grind

/-- Words are equal when their fields are. -/
theorem packWord_inj {opc opc' : BitVec 8} {a b a' b' : BitVec 16} :
    packWord opc a b = packWord opc' a' b' ↔ opc = opc' ∧ a = a' ∧ b = b' := by
  constructor
  · intro h
    have hopc := congrArg opcField h
    have ha := congrArg fieldA h
    have hb := congrArg fieldB h
    simp only [opcField_packWord, fieldA_packWord, fieldB_packWord] at hopc ha hb
    exact ⟨hopc, ha, hb⟩
  · rintro ⟨rfl, rfl, rfl⟩; rfl

/-- A mask acts on each field apart. -/
theorem packWord_and_packWord (opc opc' : BitVec 8) (a b a' b' : BitVec 16) :
    packWord opc a b &&& packWord opc' a' b' = packWord (opc &&& opc') (a &&& a') (b &&& b') := by
  apply BitVec.eq_of_getLsbD_eq
  intro i hi
  simp only [packWord, BitVec.getLsbD_and, BitVec.getLsbD_append]
  grind

/-- A word carried as bytes and put together again is the word (20_memory.md R39). -/
theorem wordOfBytes_bytesOfWord (w : CommandWord) (rest : List Byte) :
    wordOfBytes (bytesOfWord w ++ rest) = .ok (w, rest) := by
  simp only [bytesOfWord, List.cons_append, List.nil_append, wordOfBytes]
  congr 2
  apply BitVec.eq_of_getLsbD_eq
  intro i hi
  simp only [packWord, BitVec.getLsbD_extractLsb', BitVec.getLsbD_append]
  grind

/-- The decoder's answer on a word given by its three fields (30_encoding.md R60). -/
theorem decode_packWord (opc : BitVec 8) (a b : BitVec 16) :
    decode (packWord opc a b) = decodeFields opc a b := by
  simp [decode]

/-- What a check of reserved bits answers. -/
theorem ifReservedZero_ok_iff (c : Bool) (i j : Instr) :
    ifReservedZero c i = .ok j ↔ c = true ∧ i = j := by
  unfold ifReservedZero; split <;> simp_all

end Sys2Proof
end

