-- ==== Sys2Proof/Laws/State.lean ====
section
/-! SUPPORT. What each state update does to each field and to each response register. -/

namespace Sys2Proof.Machine

variable (s t : State) (r : RespReg) (v : Option Block) (f : FaultRecord) (o : Observation)

/-! ### Writing one response register -/

@[simp] theorem State.reg_setReg_same : (s.setReg r v).reg r = v := by cases r <;> rfl

theorem State.reg_setReg_of_ne {r r' : RespReg} (h : r' ≠ r) : (s.setReg r v).reg r' = s.reg r' := by
  cases r <;> cases r' <;> first | rfl | exact absurd rfl h

@[simp] theorem State.setReg_fault : (s.setReg r v).fault = s.fault := by cases r <;> rfl
@[simp] theorem State.setReg_pending : (s.setReg r v).pending = s.pending := by cases r <;> rfl
@[simp] theorem State.setReg_observed : (s.setReg r v).observed = s.observed := by cases r <;> rfl

/-! ### Clearing the response registers -/

@[simp] theorem State.reg_clearResponses : s.clearResponses.reg r = none := by cases r <;> rfl
@[simp] theorem State.clearResponses_fault : s.clearResponses.fault = s.fault := rfl
@[simp] theorem State.clearResponses_pending : s.clearResponses.pending = s.pending := rfl
@[simp] theorem State.clearResponses_observed : s.clearResponses.observed = s.observed := rfl

/-! ### Replacing the pending actions -/

@[simp] theorem State.reg_setPending (p : List HostAction) : (s.setPending p).reg r = s.reg r := by
  cases r <;> rfl
@[simp] theorem State.setPending_fault (p : List HostAction) : (s.setPending p).fault = s.fault := rfl
@[simp] theorem State.setPending_pending (p : List HostAction) : (s.setPending p).pending = p := rfl
@[simp] theorem State.setPending_observed (p : List HostAction) :
    (s.setPending p).observed = s.observed := rfl
@[simp] theorem State.setPending_status (p : List HostAction) : (s.setPending p).status = s.status := rfl

/-! ### Observing a value -/

@[simp] theorem State.reg_observe : (s.observe o).reg r = s.reg r := by cases r <;> rfl
@[simp] theorem State.observe_fault : (s.observe o).fault = s.fault := rfl
@[simp] theorem State.observe_pending : (s.observe o).pending = s.pending := rfl
@[simp] theorem State.observe_observed : (s.observe o).observed = s.observed ++ [o] := rfl

/-! ### Recording a fault -/

@[simp] theorem State.reg_withFault (g : Option FaultRecord) :
    State.reg { s with fault := g } r = s.reg r := by cases r <;> rfl
@[simp] theorem State.reg_recordFault : (s.recordFault f).reg r = s.reg r := by
  unfold State.recordFault; split <;> simp
@[simp] theorem State.recordFault_pending : (s.recordFault f).pending = s.pending := by
  unfold State.recordFault; split <;> rfl
@[simp] theorem State.recordFault_observed : (s.recordFault f).observed = s.observed := by
  unfold State.recordFault; split <;> rfl

/-- The fault record after one more fault: the one that stood, or else the new one (R123, R124). -/
theorem State.recordFault_fault : (s.recordFault f).fault = s.fault.or (some f) := by
  unfold State.recordFault; split <;> simp_all

/-! ### Reset -/

@[simp] theorem State.reg_applyReset : s.applyReset.reg r = none := by cases r <;> rfl
@[simp] theorem State.applyReset_fault : s.applyReset.fault = none := rfl
@[simp] theorem State.applyReset_pending : s.applyReset.pending = s.pending := rfl
@[simp] theorem State.applyReset_observed : s.applyReset.observed = s.observed := rfl
@[simp] theorem State.reg_reset : State.reset.reg r = none := by cases r <;> rfl

/-! ### Placing a word -/

@[simp] theorem reg_placeWord (w : CommandWord) : (placeWord s w).reg r = s.reg r := by cases r <;> rfl
@[simp] theorem placeWord_fault (w : CommandWord) : (placeWord s w).fault = s.fault := rfl
@[simp] theorem placeWord_pending (w : CommandWord) :
    (placeWord s w).pending = .issue w :: s.pending := rfl
@[simp] theorem placeWord_observed (w : CommandWord) : (placeWord s w).observed = s.observed := rfl

/-- States are equal when every register, the fault record and the host's fields are. -/
theorem State.eq_of_reg {s t : State} (hreg : ∀ r, s.reg r = t.reg r) (hf : s.fault = t.fault)
    (hp : s.pending = t.pending) (ho : s.observed = t.observed) : s = t := by
  have h : ∀ r, s.reg r = t.reg r := hreg
  obtain ⟨⟩ := s
  obtain ⟨⟩ := t
  simp only [State.mk.injEq]
  exact ⟨h .res, h .rk0, h .rk1, h .rk2, h .tr0, h .tr1, h .tr2, h .tr3, h .tr4, h .tr5, h .tr6, hf, hp, ho⟩

end Sys2Proof.Machine
end

