-- ==== Sys2Proof/Laws/Ops.lean ====
section
/-! SUPPORT. One lemma per shared operation, saying everything it does: a command's response, taking a
fault, and a host read. -/

namespace Sys2Proof.Machine

/-- The writes of a response, folded over a state, leave the fault record and the host's fields alone. -/
theorem foldl_setReg_frame (ws : List (RespReg × Block)) (s : State) :
    (ws.foldl (fun t w => t.setReg w.1 (some w.2)) s).fault = s.fault ∧
      (ws.foldl (fun t w => t.setReg w.1 (some w.2)) s).pending = s.pending ∧
      (ws.foldl (fun t w => t.setReg w.1 (some w.2)) s).observed = s.observed := by
  induction ws generalizing s with
  | nil => exact ⟨rfl, rfl, rfl⟩
  | cons w ws ih => simpa using ih (s.setReg w.1 (some w.2))

@[simp] theorem State.respond_fault (s : State) (ws) : (s.respond ws).fault = s.fault :=
  (foldl_setReg_frame ws s.clearResponses).1
@[simp] theorem State.respond_pending (s : State) (ws) : (s.respond ws).pending = s.pending :=
  (foldl_setReg_frame ws s.clearResponses).2.1
@[simp] theorem State.respond_observed (s : State) (ws) : (s.respond ws).observed = s.observed :=
  (foldl_setReg_frame ws s.clearResponses).2.2

/-- The writes of a response, folded over two states that agree on a register, still agree on it. -/
theorem foldl_setReg_congr (ws : List (RespReg × Block)) (s t : State) (r : RespReg)
    (h : s.reg r = t.reg r) :
    (ws.foldl (fun t w => t.setReg w.1 (some w.2)) s).reg r =
      (ws.foldl (fun t w => t.setReg w.1 (some w.2)) t).reg r := by
  induction ws generalizing s t with
  | nil => exact h
  | cons w ws ih =>
    refine ih _ _ ?_
    by_cases hr : r = w.1
    · subst hr; simp
    · simp [State.reg_setReg_of_ne, hr, h]

/-- The registers after a command's response depend on its writes alone (10_state.md R26). -/
theorem State.reg_respond_congr (s t : State) (ws : List (RespReg × Block)) (r : RespReg) :
    (s.respond ws).reg r = (t.respond ws).reg r :=
  foldl_setReg_congr ws _ _ r (by simp)

/-- A response that writes one register: it holds the value, every other register holds NONE. -/
theorem State.reg_respond_single (s : State) (r r' : RespReg) (v : Block) :
    (s.respond [(r, v)]).reg r' = if r' = r then some v else none := by
  simp only [State.respond, List.foldl_cons, List.foldl_nil]
  split
  · next h => subst h; simp
  · next h => simp [State.reg_setReg_of_ne, h]

/-- TAKING A FAULT: everything it does (60_exceptions.md R119, R120, R123, R125). -/
theorem State.takeFault_spec (s : State) (f : FaultRecord) :
    (s.takeFault f).fault = s.fault.or (some f) ∧ (s.takeFault f).pending = s.pending ∧
      (s.takeFault f).observed = s.observed ∧
      ∀ r, (s.takeFault f).reg r = match f with
        | .illegalCommand _ => none
        | .readNoValue _ => s.reg r := by
  cases f <;> simp [State.takeFault, State.recordFault_fault]

/-- IllegalCommand taken where no fault stands (60_exceptions.md R119). -/
theorem State.takeFault_illegal_of_none {s : State} (w : CommandWord) (h : s.fault = none) :
    (s.takeFault (.illegalCommand w)).fault = some (.illegalCommand w) := by
  rw [(s.takeFault_spec _).1, h, Option.none_or]

/-- STATUS after a fault is recorded over none (R29, R117). -/
theorem State.status_of_fault (s : State) :
    s.status = match s.fault with
      | some (.illegalCommand w) => ⟨1#1, 1#4, w⟩
      | some (.readNoValue _) => ⟨0#1, 0#4, 0#40⟩
      | none => ⟨0#1, 0#4, 0#40⟩ := by
  unfold State.status; split <;> simp_all [faultCode]

/-- Reading a register's data: everything it does (R25, R120). -/
theorem readData_spec (r : RespReg) (s : State) :
    (∀ r', (readData r s).reg r' = s.reg r') ∧ (readData r s).pending = s.pending ∧
      (∀ v, s.reg r = some v → (readData r s).fault = s.fault ∧
        (readData r s).observed = s.observed ++ [.data r v]) ∧
      (s.reg r = none → (readData r s).fault = s.fault.or (some (.readNoValue r)) ∧
        (readData r s).observed = s.observed) := by
  unfold readData
  cases h : s.reg r with
  | some v => simp
  | none => simp [State.takeFault, State.recordFault_fault]

end Sys2Proof.Machine
end

