-- ==== Sys2Proof/Laws/Exec.lean ====
section
/-! SUPPORT. Every command is a response whose writes depend on the command alone, and what a step can do. -/

namespace Sys2Proof.Machine

/-- The registers a command writes, with their values: its rule's pseudocode. -/
def commandWrites : Instr → List (RespReg × Block)
  | .gfmul a b => [(.res, zext16 (gfMul a b))]
  | .subnib x => [(.res, subNib Config.sbox x)]
  | .shiftrows x => [(.res, shiftRows x)]
  | .mixcol x => [(.res, mixCol x)]
  | .subbyte x => [(.res, zext16 (subByte Config.sbox x))]
  | .addkey x k => [(.res, addKey x k)]
  | .keyexp key => roundKeyWrites (keyExp Config.sbox key)
  | .encrypt pt key =>
    let e := encryptBlock Config.sbox pt key
    (.res, e.ct) :: roundKeyWrites e.keys ++ traceWrites e

/-- What `exec` answers, for every command and state. -/
theorem exec_eq_respond (i : Instr) (s : State) : exec i s = .next (s.respond (commandWrites i)) := by
  cases i <;> rfl

/-- A word that decodes, issued with no fault standing, runs. -/
theorem issueWord_of_ok {w : CommandWord} {i : Instr} {s : State} (hd : decode w = .ok i)
    (hs : s.fault = none) : issueWord w s = exec i s := by
  unfold issueWord; rw [hs]; simp [hd]

/-- A word that does not decode, issued with no fault standing, raises IllegalCommand. -/
theorem issueWord_of_error {w : CommandWord} {e : DecodeError} {s : State} (hd : decode w = .error e)
    (hs : s.fault = none) : issueWord w s = .next (s.takeFault (.illegalCommand w)) := by
  unfold issueWord; rw [hs]; simp [hd]

/-- An issue that takes a step: the command ran, or IllegalCommand was taken (60_exceptions.md R118, R119). -/
theorem issueWord_cases {w : CommandWord} {s t : State} (h : issueWord w s = .next t) :
    s.fault = none ∧
      ((∃ i, decode w = .ok i ∧ t = s.respond (commandWrites i)) ∨
        ((∃ e, decode w = .error e) ∧ t = s.takeFault (.illegalCommand w))) := by
  unfold issueWord at h
  split at h
  · cases h
  · next hf =>
    refine ⟨hf, ?_⟩
    split at h
    · next i hi =>
      rw [exec_eq_respond] at h
      injection h with h
      exact .inl ⟨i, hi, h.symm⟩
    · next e he =>
      injection h with h
      exact .inr ⟨⟨e, he⟩, h.symm⟩

/-- STEP INVERSION: a step that answers a next state found nothing pending, or took the host's first
pending action and performed it. -/
theorem step_cases {s t : State} (h : step s = .next t) :
    (s.pending = [] ∧ t = s) ∨
      ∃ a rest, s.pending = a :: rest ∧ performAction a (s.setPending rest) = .next t := by
  unfold step nextAction at h
  split at h
  · next hp => injection h with h; exact .inl ⟨hp, h.symm⟩
  · next a rest hp => exact .inr ⟨a, rest, hp, h⟩

/-- A step with an action pending performs it. -/
theorem step_of_pending {s : State} {a : HostAction} {rest : List HostAction}
    (h : s.pending = a :: rest) : step s = performAction a (s.setPending rest) := by
  unfold step nextAction; rw [h]

/-- A step with nothing pending keeps the state. -/
theorem step_of_idle {s : State} (h : s.pending = []) : step s = .next s := by
  unfold step nextAction; rw [h]

/-- WHAT A STEP CAN DO, effect by effect: nothing, run a command, take IllegalCommand, read, or reset. -/
theorem step_effects {s t : State} (h : step s = .next t) :
    t = s ∨ ∃ a rest, s.pending = a :: rest ∧
      ((∃ w i, a = .issue w ∧ s.fault = none ∧ decode w = .ok i ∧
          t = (s.setPending rest).respond (commandWrites i)) ∨
        (∃ w e, a = .issue w ∧ s.fault = none ∧ decode w = .error e ∧
          t = (s.setPending rest).takeFault (.illegalCommand w)) ∨
        (a.isRead ∧ (∀ r, t.reg r = s.reg r) ∧ (t.fault = s.fault ∨
          ∃ r, s.fault = none ∧ s.reg r = none ∧ t.fault = some (.readNoValue r))) ∨
        (a.isReset ∧ t = (s.setPending rest).applyReset)) := by
  rcases step_cases h with ⟨_, rfl⟩ | ⟨a, rest, hp, h⟩
  · exact .inl rfl
  refine .inr ⟨a, rest, hp, ?_⟩
  cases a with
  | issue w =>
    rcases issueWord_cases h with ⟨hf, ⟨i, hd, rfl⟩ | ⟨⟨e, he⟩, rfl⟩⟩
    · exact .inl ⟨w, i, rfl, hf, hd, rfl⟩
    · exact .inr (.inl ⟨w, e, rfl, hf, he, rfl⟩)
  | readData r =>
    injection h with h
    subst h
    have hr := readData_spec r (s.setPending rest)
    refine .inr (.inr (.inl ⟨trivial, by simpa using hr.1, ?_⟩))
    cases hv : (s.setPending rest).reg r with
    | some v => exact .inl ((hr.2.2.1 v hv).1)
    | none =>
      have hrec := (hr.2.2.2 hv).1
      cases hf : s.fault with
      | none => exact .inr ⟨r, rfl, by simpa using hv, by simpa [hf] using hrec⟩
      | some f => exact .inl (by simpa [hf] using hrec)
  | readValid r => injection h with h; subst h; exact .inr (.inr (.inl ⟨trivial, by simp [readValid], .inl rfl⟩))
  | readStatus => injection h with h; subst h; exact .inr (.inr (.inl ⟨trivial, by simp [readStatus], .inl rfl⟩))
  | reset => injection h with h; subst h; exact .inr (.inr (.inr ⟨trivial, rfl⟩))
  | resetInFlight w => injection h with h; subst h; exact .inr (.inr (.inr ⟨trivial, rfl⟩))

end Sys2Proof.Machine
end

