-- ==== Sys2Proof/Laws/Operands.lean ====
section
/-! SUPPORT. Slices undo joins and joins undo slices (00_scope.md R13, R14; 20_memory.md R38). -/

namespace Sys2Proof.Machine

@[simp] theorem nib_joinNibbles_zero (n3 n2 n1 n0 : Nibble) : nib (joinNibbles n3 n2 n1 n0) 0 = n0 := by
  apply BitVec.eq_of_getLsbD_eq
  intro i hi
  simp only [nib, joinNibbles, BitVec.getLsbD_extractLsb', BitVec.getLsbD_append]
  grind

@[simp] theorem nib_joinNibbles_one (n3 n2 n1 n0 : Nibble) : nib (joinNibbles n3 n2 n1 n0) 1 = n1 := by
  apply BitVec.eq_of_getLsbD_eq
  intro i hi
  simp only [nib, joinNibbles, BitVec.getLsbD_extractLsb', BitVec.getLsbD_append]
  grind

@[simp] theorem nib_joinNibbles_two (n3 n2 n1 n0 : Nibble) : nib (joinNibbles n3 n2 n1 n0) 2 = n2 := by
  apply BitVec.eq_of_getLsbD_eq
  intro i hi
  simp only [nib, joinNibbles, BitVec.getLsbD_extractLsb', BitVec.getLsbD_append]
  grind

@[simp] theorem nib_joinNibbles_three (n3 n2 n1 n0 : Nibble) : nib (joinNibbles n3 n2 n1 n0) 3 = n3 := by
  apply BitVec.eq_of_getLsbD_eq
  intro i hi
  simp only [nib, joinNibbles, BitVec.getLsbD_extractLsb', BitVec.getLsbD_append]
  grind

/-- A block is its four nibbles. -/
@[simp] theorem joinNibbles_nib (x : Block) : joinNibbles (nib x 3) (nib x 2) (nib x 1) (nib x 0) = x := by
  apply BitVec.eq_of_getLsbD_eq
  intro i hi
  simp only [nib, joinNibbles, BitVec.getLsbD_extractLsb', BitVec.getLsbD_append]
  grind

/-- Blocks are equal when their nibbles are. -/
theorem eq_of_nib {x y : Block} (h3 : nib x 3 = nib y 3) (h2 : nib x 2 = nib y 2)
    (h1 : nib x 1 = nib y 1) (h0 : nib x 0 = nib y 0) : x = y := by
  rw [← joinNibbles_nib x, ← joinNibbles_nib y, h3, h2, h1, h0]

/-- XOR acts on each nibble apart. -/
@[simp] theorem nib_xor (x y : Block) (i : Nat) : nib (x ^^^ y) i = nib x i ^^^ nib y i := by
  apply BitVec.eq_of_getLsbD_eq
  intro j hj
  simp [nib, hj]

@[simp] theorem hiNibble_joinByte (hi lo : Nibble) : hiNibble (joinByte hi lo) = hi := by
  apply BitVec.eq_of_getLsbD_eq
  intro i hi'
  simp only [hiNibble, joinByte, BitVec.getLsbD_extractLsb', BitVec.getLsbD_append]
  grind

@[simp] theorem loNibble_joinByte (hi lo : Nibble) : loNibble (joinByte hi lo) = lo := by
  apply BitVec.eq_of_getLsbD_eq
  intro i hi'
  simp only [loNibble, joinByte, BitVec.getLsbD_extractLsb', BitVec.getLsbD_append]
  grind

/-- A byte is its two nibbles. -/
@[simp] theorem joinByte_nibbles (w : Byte) : joinByte (hiNibble w) (loNibble w) = w := by
  apply BitVec.eq_of_getLsbD_eq
  intro i hi
  simp only [hiNibble, loNibble, joinByte, BitVec.getLsbD_extractLsb', BitVec.getLsbD_append]
  grind

@[simp] theorem hiByte_joinBytes (hi lo : Byte) : hiByte (joinBytes hi lo) = hi := by
  apply BitVec.eq_of_getLsbD_eq
  intro i hi'
  simp only [hiByte, joinBytes, BitVec.getLsbD_extractLsb', BitVec.getLsbD_append]
  grind

@[simp] theorem loByte_joinBytes (hi lo : Byte) : loByte (joinBytes hi lo) = lo := by
  apply BitVec.eq_of_getLsbD_eq
  intro i hi'
  simp only [loByte, joinBytes, BitVec.getLsbD_extractLsb', BitVec.getLsbD_append]
  grind

/-- A block is its two bytes. -/
@[simp] theorem joinBytes_bytes (x : Block) : joinBytes (hiByte x) (loByte x) = x := by
  apply BitVec.eq_of_getLsbD_eq
  intro i hi
  simp only [hiByte, loByte, joinBytes, BitVec.getLsbD_extractLsb', BitVec.getLsbD_append]
  grind

/-- The final mask of the multiplier changes no bit (40_gf_multiplier.md R68). -/
@[simp] theorem mask4_eq (v : Nibble) : mask4 v = v := by
  unfold mask4; revert v; decide

end Sys2Proof.Machine
end

