-- ==== Sys2Proof/Laws/PerInstr.lean ====
section
/-! SUPPORT. Statements made command by command: the operation and the operands of a command's word. -/

namespace Sys2Proof.Laws.EncodedFields

/-- A command's word carries its operation's opcode (30_encoding.md R56) and its operand fields (R57), and
the command is well formed (R34). -/
def Statement (i : Instr) : Prop :=
  opcField (encode i) = i.op.opcode ∧ fieldA (encode i) = i.encodeA ∧ fieldB (encode i) = i.encodeB ∧
    i.wellFormed = true

theorem fields (i : Instr) : opcField (encode i) = i.op.opcode ∧ fieldA (encode i) = i.encodeA ∧
    fieldB (encode i) = i.encodeB := by
  simp [encode]

theorem gfmul (a b : Nibble) : Statement (.gfmul a b) := by
  refine ⟨(fields _).1, (fields _).2.1, (fields _).2.2, ?_⟩
  have := a.isLt; have := b.isLt
  simp [Instr.wellFormed, SourceCommand.wellFormed, Instr.source, Op.operandBounds, withinBounds]; omega

theorem subnib (x : Block) : Statement (.subnib x) := by
  refine ⟨(fields _).1, (fields _).2.1, (fields _).2.2, ?_⟩
  have := x.isLt
  simp [Instr.wellFormed, SourceCommand.wellFormed, Instr.source, Op.operandBounds, withinBounds]; omega

theorem shiftrows (x : Block) : Statement (.shiftrows x) := by
  refine ⟨(fields _).1, (fields _).2.1, (fields _).2.2, ?_⟩
  have := x.isLt
  simp [Instr.wellFormed, SourceCommand.wellFormed, Instr.source, Op.operandBounds, withinBounds]; omega

theorem mixcol (x : Block) : Statement (.mixcol x) := by
  refine ⟨(fields _).1, (fields _).2.1, (fields _).2.2, ?_⟩
  have := x.isLt
  simp [Instr.wellFormed, SourceCommand.wellFormed, Instr.source, Op.operandBounds, withinBounds]; omega

theorem subbyte (x : Byte) : Statement (.subbyte x) := by
  refine ⟨(fields _).1, (fields _).2.1, (fields _).2.2, ?_⟩
  have := x.isLt
  simp [Instr.wellFormed, SourceCommand.wellFormed, Instr.source, Op.operandBounds, withinBounds]; omega

theorem addkey (x k : Block) : Statement (.addkey x k) := by
  refine ⟨(fields _).1, (fields _).2.1, (fields _).2.2, ?_⟩
  have := x.isLt; have := k.isLt
  simp [Instr.wellFormed, SourceCommand.wellFormed, Instr.source, Op.operandBounds, withinBounds]; omega

theorem keyexp (key : Block) : Statement (.keyexp key) := by
  refine ⟨(fields _).1, (fields _).2.1, (fields _).2.2, ?_⟩
  have := key.isLt
  simp [Instr.wellFormed, SourceCommand.wellFormed, Instr.source, Op.operandBounds, withinBounds]; omega

theorem encrypt (pt key : Block) : Statement (.encrypt pt key) := by
  refine ⟨(fields _).1, (fields _).2.1, (fields _).2.2, ?_⟩
  have := pt.isLt; have := key.isLt
  simp [Instr.wellFormed, SourceCommand.wellFormed, Instr.source, Op.operandBounds, withinBounds]; omega

end Sys2Proof.Laws.EncodedFields
end

