-- ==== Sys2Proof/Tests/Slice0.lean ====
section
/-! SUPPORT. Tests of single decodings, single steps and single functions. Expected results come from the
spec's patterns (30_encoding.md R57) and its vectors (95_test_vectors.md, by their ids), never from the
model. Then, for each statement with hypotheses, a witness that they can be met together. -/

open Sys2Proof Sys2Proof.Machine Sys2Proof.Statements

namespace Sys2Proof.Tests

/-- The next state of an outcome, where it is one. -/
def nextState : Host.Outcome State Fault Refusal → Option State
  | .next t => some t
  | .fault _ => none
  | .refused _ => none

/-- A state in which every response register holds a value and these actions are pending. -/
def busy (actions : List HostAction) : State :=
  { res := some 0x1111#16, rk0 := some 0x2222#16, rk1 := some 0x3333#16, rk2 := some 0x4444#16,
    tr0 := some 0#16, tr1 := some 1#16, tr2 := some 2#16, tr3 := some 3#16, tr4 := some 4#16,
    tr5 := some 5#16, tr6 := some 6#16, fault := none, pending := actions, observed := [] }

/-- The reset state with these actions pending and this fault record. -/
def faulted (f : FaultRecord) (actions : List HostAction) : State :=
  { State.reset with fault := some f, pending := actions }

/-! ### Well-formedness: one ill-formed term for each check -/

theorem test_gfmul_operand_out_of_range : (SourceCommand.mk .gfmul [16, 3]).wellFormed = false := by decide
theorem test_gfmul_second_operand_out_of_range : (SourceCommand.mk .gfmul [15, 16]).wellFormed = false := by decide
theorem test_subbyte_operand_out_of_range : (SourceCommand.mk .subbyte [256]).wellFormed = false := by decide
theorem test_block_operand_out_of_range : (SourceCommand.mk .addkey [65535, 65536]).wellFormed = false := by decide
theorem test_operand_missing : (SourceCommand.mk .encrypt [1]).wellFormed = false := by decide
theorem test_operand_left_over : (SourceCommand.mk .subnib [1, 2]).wellFormed = false := by decide
theorem test_bounds_met : (SourceCommand.mk .gfmul [15, 15]).wellFormed = true ∧
    (SourceCommand.mk .subbyte [255]).wellFormed = true ∧
    (SourceCommand.mk .encrypt [65535, 65535]).wellFormed = true := by decide
/-- V-ILL-1 … V-ILL-10: no row of the opcode table selects one of these words. -/
theorem test_illegal_words_not_legal : [0x0000000000#40, 0x0900000000#40, 0xFFFFFFFFFF#40, 0x0212340001#40,
    0x0100100003#40, 0x0100040013#40, 0x0501CD0000#40, 0x070001ABCD#40, 0x0312348000#40,
    0x040000FFFF#40].all (fun w => !legalWord w) = true := by decide

/-! ### Decoding: words written out bit by bit from R57's patterns -/

theorem test_decode_gfmul :
    decode 0b0000000100000000000001000000000000000011#40 = .ok (.gfmul 0x4#4 0x3#4) := by decide
theorem test_decode_subnib :
    decode 0b0000001000010010001101000000000000000000#40 = .ok (.subnib 0x1234#16) := by decide
theorem test_decode_shiftrows :
    decode 0b0000001100010010001101000000000000000000#40 = .ok (.shiftrows 0x1234#16) := by decide
theorem test_decode_mixcol :
    decode 0b0000010010010110000010000000000000000000#40 = .ok (.mixcol 0x9608#16) := by decide
theorem test_decode_subbyte :
    decode 0b0000010100000000110011010000000000000000#40 = .ok (.subbyte 0xCD#8) := by decide
theorem test_decode_addkey :
    decode 0b0000011000010010001101001010101111001101#40 = .ok (.addkey 0x1234#16 0xABCD#16) := by decide
theorem test_decode_keyexp :
    decode 0b0000011100000000000000001010101111001101#40 = .ok (.keyexp 0xABCD#16) := by decide
theorem test_decode_encrypt :
    decode 0b0000100000010010001101001010101111001101#40 = .ok (.encrypt 0x1234#16 0xABCD#16) := by decide
/-- V-ILL-1 to V-ILL-10, each rejected by name. -/
theorem test_decode_illegal : decode 0x0000000000#40 = .error (.reservedOpcode 0x00#8) ∧
    decode 0x0900000000#40 = .error (.reservedOpcode 0x09#8) ∧
    decode 0xFFFFFFFFFF#40 = .error (.reservedOpcode 0xFF#8) ∧
    decode 0x0212340001#40 = .error (.reservedBits .subnib) ∧
    decode 0x0100100003#40 = .error (.reservedBits .gfmul) ∧
    decode 0x0100040013#40 = .error (.reservedBits .gfmul) ∧
    decode 0x0501CD0000#40 = .error (.reservedBits .subbyte) ∧
    decode 0x070001ABCD#40 = .error (.reservedBits .keyexp) ∧
    decode 0x0312348000#40 = .error (.reservedBits .shiftrows) ∧
    decode 0x040000FFFF#40 = .error (.reservedBits .mixcol) := by decide
/-- V-LEG-1 to V-LEG-4. -/
theorem test_decode_domain_tops : decode 0x06FFFFFFFF#40 = .ok (.addkey 0xFFFF#16 0xFFFF#16) ∧
    decode 0x0800000000#40 = .ok (.encrypt 0#16 0#16) ∧
    decode 0x01000F000F#40 = .ok (.gfmul 0xF#4 0xF#4) ∧
    decode 0x0500FF0000#40 = .ok (.subbyte 0xFF#8) := by decide
/-- R39's byte order, on R64's word. -/
theorem test_decode_bytes : decodeBytes [0x08#8, 0x12#8, 0x34#8, 0xAB#8, 0xCD#8, 0x77#8] =
    .ok (.encrypt 0x1234#16 0xABCD#16, [0x77#8]) := by decide
theorem test_decode_truncated : decodeBytes [0x08#8, 0x12#8] = .error (.truncated 2) := by decide
/-- The opcode table's own numbers. -/
theorem test_decode_table_words : decodeTableWord 40 0x0700000000 = some (.keyexp 0#16) ∧
    decodeTableWord 40 0x0900000000 = none := by decide

/-! ### The assembler (R61 to R63) -/

theorem test_assemble_alias_any_case : assembleLine "MULTIPLY 0x9, 2".toList = .ok 0x0100090002#40 := by decide
theorem test_assemble_shift_alias : assembleLine "shiftRows 0x1234".toList = .ok 0x0312340000#40 := by decide
theorem test_assemble_never_truncates :
    assembleLine "gfmul 0x10, 0x3".toList = .error (.badOperands .gfmul) := by decide
theorem test_assemble_unknown : assembleLine "nop".toList = .error .unknownMnemonic := by decide
theorem test_assemble_bad_literal : assembleLine "subnib 12g".toList = .error .badLiteral := by decide

/-! ### The functions -/

/-- V-GF-T, row by row. -/
theorem test_gfMul_product_table :
    (List.range 16).map (fun a => (List.range 16).map fun b =>
      (gfMul (BitVec.ofNat 4 a) (BitVec.ofNat 4 b)).toNat) =
    [[0, 0, 0, 0, 0, 0, 0, 0, 0, 0, 0, 0, 0, 0, 0, 0],
     [0, 1, 2, 3, 4, 5, 6, 7, 8, 9, 10, 11, 12, 13, 14, 15],
     [0, 2, 4, 6, 8, 10, 12, 14, 3, 1, 7, 5, 11, 9, 15, 13],
     [0, 3, 6, 5, 12, 15, 10, 9, 11, 8, 13, 14, 7, 4, 1, 2],
     [0, 4, 8, 12, 3, 7, 11, 15, 6, 2, 14, 10, 5, 1, 13, 9],
     [0, 5, 10, 15, 7, 2, 13, 8, 14, 11, 4, 1, 9, 12, 3, 6],
     [0, 6, 12, 10, 11, 13, 7, 1, 5, 3, 9, 15, 14, 8, 2, 4],
     [0, 7, 14, 9, 15, 8, 1, 6, 13, 10, 3, 4, 2, 5, 12, 11]] ++
    [[0, 8, 3, 11, 6, 14, 5, 13, 12, 4, 15, 7, 10, 2, 9, 1],
     [0, 9, 1, 8, 2, 11, 3, 10, 4, 13, 5, 12, 6, 15, 7, 14],
     [0, 10, 7, 13, 14, 4, 9, 3, 15, 5, 8, 2, 1, 11, 6, 12],
     [0, 11, 5, 14, 10, 1, 15, 4, 7, 12, 2, 9, 13, 6, 8, 3],
     [0, 12, 11, 7, 5, 9, 14, 2, 10, 6, 1, 13, 15, 3, 4, 8],
     [0, 13, 9, 4, 1, 12, 8, 5, 2, 15, 11, 6, 3, 14, 10, 7],
     [0, 14, 15, 1, 13, 3, 2, 12, 9, 7, 6, 8, 4, 10, 11, 5],
     [0, 15, 13, 2, 9, 6, 4, 11, 1, 14, 12, 3, 8, 7, 5, 10]] := by decide
/-- E1: the registers after the second iteration of `gf_mul(0xF, 0xF)`. -/
theorem test_gfm_second_iteration :
    gfmIterations 2 ⟨0#4, 0xF#5, 0xF#4⟩ = ⟨0x2#4, 0x9#5, 0x3#4⟩ := by decide
/-- V-SN-6 to V-SN-9 [SBOX_SAES]: every entry once. -/
theorem test_subNib_every_entry : [0x0123#16, 0x4567#16, 0x89AB#16, 0xCDEF#16].map (subNib referenceSbox) =
    [0x94AB#16, 0xD185#16, 0x6203#16, 0xCEF7#16] := by decide
/-- V-SB-6 and V-SB-7 [SBOX_SAES]: nibbles stay in place. -/
theorem test_subByte_in_place : subByte referenceSbox 0xC0#8 = 0xC9#8 ∧
    subByte referenceSbox 0x0C#8 = 0x9C#8 := by decide
/-- V-MC-2, V-MC-4 and V-MC-17. -/
theorem test_mixCol_vectors : mixCol 0x1234#16 = 0x9608#16 ∧ mixCol 0xABCD#16 = 0x05D8#16 ∧
    mixCol 0x7232#16 = 0xFDBE#16 := by decide
/-- V-KE-2 to V-KE-5 [SBOX_SAES]. -/
theorem test_keyExp_reference : [0x0000#16, 0xFFFF#16, 0xA73B#16, 0x4AF5#16].map (keyExp referenceSbox) =
    [⟨0x0000#16, 0x1919#16, 0x6B72#16⟩, ⟨0xFFFF#16, 0x08F7#16, 0x4DBA#16⟩,
     ⟨0xA73B#16, 0x94AF#16, 0xA30C#16⟩, ⟨0x4AF5#16, 0xBB4E#16, 0x541A#16⟩] := by decide
/-- V-KE-2i and V-KE-4i [SBOX_ID]. -/
theorem test_keyExp_identity : keyExp identitySbox 0#16 = ⟨0#16, 0x8080#16, 0x30B0#16⟩ ∧
    keyExp identitySbox 0xA73B#16 = ⟨0xA73B#16, 0x1C27#16, 0x0B2C#16⟩ := by decide
/-- V-ENC-2 to V-ENC-5 [SBOX_SAES]; V-ENC-4 is not the published cipher's 0x0738 (93 G5). -/
theorem test_encrypt_reference : (encryptBlock referenceSbox 0#16 0#16).ct = 0x6178#16 ∧
    (encryptBlock referenceSbox 0xFFFF#16 0xFFFF#16).ct = 0x9686#16 ∧
    (encryptBlock referenceSbox 0x6F6B#16 0xA73B#16).ct = 0x7BB7#16 ∧
    (encryptBlock referenceSbox 0xD728#16 0x4AF5#16).ct = 0x627C#16 := by decide
/-- V-ENC-1i and V-ENC-5i [SBOX_ID]. -/
theorem test_encrypt_identity : (encryptBlock identitySbox 0x1234#16 0xABCD#16).ct = 0x4BEE#16 ∧
    (encryptBlock identitySbox 0xD728#16 0x4AF5#16).ct = 0x86FA#16 := by decide

/-! ### One step each -/

/-- V-GF-5 on a busy core: the result is in RES and the round keys of earlier commands are gone. -/
theorem test_step_gfmul : (nextState (step (busy [.issue 0x0100020009#40]))).map
    (fun t => (t.res, t.rk0, t.tr6)) = some (some 0x0001#16, none, none) := by decide
/-- V-SR-3. -/
theorem test_step_shiftrows : (nextState (step (busy [.issue 0x03F0000000#40]))).map (·.res) =
    some (some 0x00F0#16) := by decide
/-- V-MC-12. -/
theorem test_step_mixcol : (nextState (step (busy [.issue 0x0400080000#40]))).map (·.res) =
    some (some 0x0068#16) := by decide
/-- V-AK-1. -/
theorem test_step_addkey : (nextState (step (busy [.issue 0x061234ABCD#40]))).map (·.res) =
    some (some 0xB9F9#16) := by decide
/-- R82: any SBOX. -/
theorem test_step_subnib : (nextState (step (busy [.issue 0x0212340000#40]))).map (·.res) =
    some (some (joinNibbles (Config.sbox 1#4) (Config.sbox 2#4) (Config.sbox 3#4) (Config.sbox 4#4))) := rfl
/-- R85: any SBOX. -/
theorem test_step_subbyte : (nextState (step (busy [.issue 0x0500CD0000#40]))).map (·.res) =
    some (some (zext16 (joinByte (Config.sbox 0xC#4) (Config.sbox 0xD#4)))) := rfl
/-- P5 step 1: RK0 holds the key and RES holds NONE. -/
theorem test_step_keyexp : (nextState (step (busy [.issue 0x070000ABCD#40]))).map (fun t => (t.res, t.rk0)) =
    some (none, some 0xABCD#16) := rfl
/-- R113's example, any SBOX: TR0. -/
theorem test_step_encrypt : (nextState (step (busy [.issue 0x081234ABCD#40]))).map (fun t => (t.tr0, t.rk0)) =
    some (some 0xB9F9#16, some 0xABCD#16) := rfl
/-- P3 step 5. -/
theorem test_step_illegal : (nextState (step (busy [.issue 0x0100100003#40]))).map
    (fun t => (t.res, t.tr3, t.status)) = some (none, none, ⟨1#1, 1#4, 0x0100100003#40⟩) := by decide
/-- P3 step 6: the issue has no step. -/
theorem test_step_issue_while_faulted :
    nextState (step (faulted (.illegalCommand 0#40) [.issue 0x0312340000#40])) = none := by decide
/-- P3 step 7. -/
theorem test_step_reset : (nextState (step (faulted (.illegalCommand 0#40) [.reset]))).map
    (fun t => (t.fault, t.status)) = some (none, ⟨0#1, 0#4, 0#40⟩) := by decide
/-- P5 step 2: the record is set, STATUS shows nothing, the read gives no value. -/
theorem test_step_read_none : (nextState (step { State.reset with pending := [.readData .res] })).map
    (fun t => (t.fault, t.status, t.observed)) =
    some (some (.readNoValue .res), ⟨0#1, 0#4, 0#40⟩, []) := by decide
theorem test_step_read_value : (nextState (step (busy [.readData .rk1]))).map (·.observed) =
    some [.data .rk1 0x3333#16] := by decide
/-- P5 step 1: the valid bit of RES reads 0 and nothing faults. -/
theorem test_step_read_valid : (nextState (step { State.reset with pending := [.readValid .res] })).map
    (fun t => (t.fault, t.observed)) = some (none, [.valid .res false]) := by decide
/-- The first word after reset, placed as the opcode table numbers it. -/
theorem test_step_placed_word : (nextState (step (State.reset.withFetchWord 40 0x0600010002))).map (·.res) =
    some (some 0x0003#16) := by decide
/-- P5 steps 1 and 2, with RK0 read between them: what the run observes, and that its last read fails it. -/
theorem test_run_observes : runObserves [.issue 0x070000ABCD#40, .readValid .res, .readData .rk0]
    [.valid .res false, .data .rk0 0xABCD#16] := ⟨_, rfl, rfl⟩
theorem test_run_fails : ¬ runSucceeds [.issue 0x0600000000#40, .readData .rk0] := by
  rintro ⟨t, h, ht⟩
  cases h
  exact absurd ht (by decide)
/-- R117's codes. -/
theorem test_fault_codes : faultCode none = 0#4 ∧ faultCode (some (.illegalCommand 0#40)) = 1#4 ∧
    faultCode (some (.readNoValue .tr6)) = 2#4 := by decide
/-- R21's numbering of the registers. -/
theorem test_register_indices : [RespReg.res, .rk0, .rk1, .rk2, .tr0, .tr1, .tr2, .tr3, .tr4, .tr5, .tr6].map
    (fun r => r.index.val) = List.range 11 := by decide

/-! ### Witnesses: states and operands that meet the hypotheses of each statement -/

theorem witness_GfmulMultipliesFieldElements : State.reset.fault = none ∧
    ((0x000F#16).extractLsb' 4 12 = 0#12 ∧ (0x000F#16).extractLsb' 4 12 = 0#12) ∧
    ¬ ((0x0010#16).extractLsb' 4 12 = 0#12 ∧ (0x000F#16).extractLsb' 4 12 = 0#12) ∧
    (0x0#4 = 0#4 ∨ 0xF#4 = 0#4) := by decide
theorem witness_SubnibSubstitutesEveryNibble : State.reset.fault = none ∧ 0#16 = 0#16 ∧ ¬ 0x8000#16 = 0#16 ∧
    nib 0xC00C#16 (0 : Fin 4) = nib 0xC00C#16 (3 : Fin 4) := by decide
theorem witness_ShiftrowsSwapsTwoNibbles : State.reset.fault = none ∧ 0#16 = 0#16 ∧ ¬ 0x8000#16 = 0#16 ∧
    nib 0xF0F0#16 1 = nib 0xF0F0#16 3 := by decide
theorem witness_MixcolMixesBothColumns : State.reset.fault = none ∧ 0#16 = 0#16 ∧ ¬ 0x0001#16 = 0#16 := by decide
theorem witness_SubbyteSubstitutesBothNibbles : State.reset.fault = none ∧
    ((0x00FF#16).extractLsb' 8 8 = 0#8 ∧ 0#16 = 0#16) ∧
    ¬ ((0x0100#16).extractLsb' 8 8 = 0#8 ∧ 0#16 = 0#16) := by decide
/-- No word of ADDKEY or ENCRYPT is illegal (R97, R113), so the illegal clause has no case for either. -/
theorem witness_AddkeyXorsTheRoundKey : State.reset.fault = none ∧
    decode (packWord 0x06#8 0xFFFF#16 0xFFFF#16) = .ok (.addkey 0xFFFF#16 0xFFFF#16) := by decide
theorem witness_KeyexpExpandsTheKey : State.reset.fault = none ∧ 0#16 = 0#16 ∧ ¬ 0x0001#16 = 0#16 ∧
    exec (.keyexp 0#16) State.reset =
      .next (State.reset.respond (roundKeyWrites (keyExp Config.sbox 0#16))) := ⟨rfl, rfl, by decide, rfl⟩
theorem witness_KeyexpExpandsTheKey_words : ∃ (key : Block) (w0 w1 w2 w3 w4 w5 : Byte), key = w0 ++ w1 ∧
    w2 = w0 ^^^ 0x80#8 ^^^ subByte referenceSbox w1 ∧ w3 = w2 ^^^ w1 ∧
    w4 = w2 ^^^ 0x30#8 ^^^ subByte referenceSbox w3 ∧ w5 = w4 ^^^ w3 :=
  ⟨0xFFFF#16, 0xFF#8, 0xFF#8, 0x08#8, 0xF7#8, 0x4D#8, 0xBA#8, by decide⟩
theorem witness_EncryptRunsTheWholePipeline :
    ∃ pt key k1 k2 st1 st2 st3 st4 st5 st6 st7 : Block, keyExp Config.sbox key = ⟨key, k1, k2⟩ ∧
      st1 = pt ^^^ key ∧ st2 = subNib Config.sbox st1 ∧ st3 = shiftRows st2 ∧ st4 = mixCol st3 ∧
      st5 = st4 ^^^ k1 ∧ st6 = subNib Config.sbox st5 ∧ st7 = shiftRows st6 ∧ State.reset.fault = none :=
  ⟨0x1234#16, 0xABCD#16, (keyExp Config.sbox 0xABCD#16).k1, (keyExp Config.sbox 0xABCD#16).k2,
    _, _, _, _, _, _, _, rfl, rfl, rfl, rfl, rfl, rfl, rfl, rfl, rfl⟩
theorem witness_ResultsAreLostAtTheNextCommand : (busy []).fault = none ∧
    exec (.addkey 1#16 2#16) (busy []) = .next ((busy []).respond [(.res, 3#16)]) ∧
    RespReg.rk0 ∉ writeSet (Instr.addkey 1#16 2#16).op := ⟨rfl, rfl, by decide⟩
theorem witness_StepRunsTheDecodedCommand : (busy [.issue 0x0100040003#40]).fault = none ∧
    (busy [.issue 0x0100040003#40]).pending = [.issue 0x0100040003#40] ∧
    decode 0x0100040003#40 = .ok (.gfmul 4#4 3#4) ∧ State.reset.pending = [] := by decide
theorem witness_PlacedWordRunsNext : State.reset.fault = none := rfl
theorem witness_StepTakesOneActionInOrder : (busy [.readStatus]).pending = [.readStatus] ∧
    step (busy [.readStatus]) = .next ((busy []).observe (.status ⟨0#1, 0#4, 0#40⟩)) := ⟨rfl, rfl⟩
theorem witness_ResetClearsEveryRegisterAndFault :
    (faulted (.readNoValue .tr6) [.reset]).pending = [.reset] ∧
    step (faulted (.readNoValue .tr6) [.reset]) = .next State.reset ∧
    (faulted (.readNoValue .tr6) [.reset]).fault ≠ none ∧ State.reset.fault = none :=
  ⟨rfl, rfl, by decide, rfl⟩
theorem witness_ResetInFlightAbandonsTheCommand :
    (busy [.resetInFlight 0x081234ABCD#40]).pending = [.resetInFlight 0x081234ABCD#40] := rfl
theorem witness_IllegalWordClearsResponsesAndRecordsTheWord : (busy [.issue 0#40]).fault = none ∧
    (busy [.issue 0#40]).pending = [.issue 0#40] ∧ ∃ e, decode 0#40 = .error e :=
  ⟨rfl, rfl, .reservedOpcode 0#8, by decide⟩
/-- The boundaries of the two causes: OPC 0x00, 0x09 and 0xFF are reserved; 0x01 and 0x08 are not. -/
theorem witness_IllegalCommandHasExactlyTwoCauses : State.reset.fault = none ∧
    opcField 0x0000000000#40 = 0x00#8 ∧ 9 ≤ (opcField 0x0900000000#40).toNat ∧
    9 ≤ (opcField 0xFFFFFFFFFF#40).toNat ∧ opcField 0x0100100003#40 = Op.gfmul.opcode ∧
    0x0100100003#40 &&& reservedMask .gfmul ≠ 0#40 ∧ 0x01000F000F#40 &&& reservedMask .gfmul = 0#40 ∧
    decode 0x0800000000#40 = .ok (.encrypt 0#16 0#16) ∧
    decode 0x0900000000#40 = .error (.reservedOpcode 9#8) := by decide
theorem witness_FirstFaultStaysUntilReset :
    (faulted (.illegalCommand 0#40) [.readStatus]).fault = some (.illegalCommand 0#40) ∧
    step (faulted (.illegalCommand 0#40) [.readStatus]) =
      .next ((faulted (.illegalCommand 0#40) []).observe (.status ⟨1#1, 1#4, 0#40⟩)) := ⟨rfl, rfl⟩
theorem witness_FaultedCoreAcceptsNoWord :
    (faulted (.readNoValue .res) [.issue 0x0312340000#40]).fault = some (.readNoValue .res) ∧
    (faulted (.readNoValue .res) [.issue 0x0312340000#40]).pending = [.issue 0x0312340000#40] ∧
    (faulted (.readNoValue .res) [.readData .tr6]).pending = [.readData .tr6] ∧
    (HostAction.readData .tr6).isRead := ⟨rfl, rfl, rfl, trivial⟩
theorem witness_StepStopsOnlyOnIssueOverAFault : (busy []).keepsDuty ∧
    ¬ (faulted (.illegalCommand 0#40) [.issue 0#40]).keepsDuty :=
  ⟨fun _ _ h => (List.cons_ne_nil _ _ h.symm).elim, fun h => nomatch h _ _ rfl⟩
theorem witness_ReadingNoneRecordsReadNoValue : (busy [.readData .res]).pending = [.readData .res] ∧
    (busy [.readData .res]).reg .res = some 0x1111#16 ∧
    (faulted (.illegalCommand 0#40) [.readData .tr6]).reg .tr6 = none ∧
    (faulted (.illegalCommand 0#40) [.readData .tr6]).fault = some (.illegalCommand 0#40) ∧
    ({ State.reset with pending := [.readData .res] } : State).fault = none ∧
    ({ State.reset with pending := [.readData .res] } : State).reg .res = none := by decide
theorem witness_StatusIsTheProjectionOfTheFaultRecord :
    (faulted (.illegalCommand 0#40) [.readStatus]).fault = some (.illegalCommand 0#40) ∧
    (faulted (.illegalCommand 0#40) [.readStatus]).pending = [.readStatus] ∧
    (faulted (.readNoValue .tr6) []).fault = some (.readNoValue .tr6) ∧ (busy []).fault = none := by decide
theorem witness_ReadsChangeNoRegister : (busy [.readValid .tr6]).pending = [.readValid .tr6] ∧
    (HostAction.readValid .tr6).isRead ∧ step (busy [.reset]) = .next State.reset ∧
    State.reset.reg .res ≠ (busy [.reset]).reg .res := ⟨rfl, trivial, rfl, by decide⟩
/-- Three states, one for each clause: after ADDKEY, after an illegal word, after a read of NONE. -/
theorem witness_StepKeepsResponsesCoherent :
    (responsesCoherent (State.reset.respond [(.res, 3#16)]) ∧
      step (State.reset.respond [(.res, 3#16)]) = .next (State.reset.respond [(.res, 3#16)])) ∧
    (responsesCoherent (faulted (.illegalCommand 0#40) []) ∧
      step (faulted (.illegalCommand 0#40) []) = .next (faulted (.illegalCommand 0#40) [])) ∧
    (responsesCoherent (faulted (.readNoValue .tr6) []) ∧
      step (faulted (.readNoValue .tr6) []) = .next (faulted (.readNoValue .tr6) [])) := by
  refine ⟨⟨⟨nofun, nofun, .inr ⟨.addkey 1#16 2#16, _, rfl, fun _ => rfl⟩⟩, rfl⟩, ⟨⟨?_, nofun, ?_⟩, rfl⟩,
    ⟨⟨nofun, ?_, ?_⟩, rfl⟩⟩
  · intro w h
    cases h
    exact ⟨fun r => by cases r <;> rfl, .reservedOpcode 0#8, by decide⟩
  · exact .inl fun r => by cases r <;> rfl
  · intro r h
    cases h
    rfl
  · exact .inl fun r => by cases r <;> rfl
/-- A state with no trace, and the state after an encryption. -/
theorem witness_StepKeepsTraceOfOneEncryption :
    (traceOfOneEncryption State.reset ∧ step State.reset = .next State.reset) ∧
    ∃ s : State, exec (.encrypt 0#16 0#16) State.reset = .next s ∧ traceOfOneEncryption s ∧
      s.reg .tr0 ≠ none ∧ step s = .next s := by
  refine ⟨⟨?_, rfl⟩, _, rfl, ?_, nofun, rfl⟩
  · rintro ⟨r, _, h⟩
    exact absurd (by cases r <;> rfl) h
  · intro _
    exact ⟨0#16, 0#16, (keyExp Config.sbox 0#16).k1, (keyExp Config.sbox 0#16).k2, rfl, rfl, rfl, rfl, rfl,
      rfl, rfl, rfl, _, rfl, rfl, rfl, rfl, rfl⟩
theorem witness_ResponsesIgnoreEarlierState : State.reset.fault = (busy []).fault ∧
    issueWord 0x0600010002#40 State.reset = .next (State.reset.respond [(.res, 3#16)]) ∧
    issueWord 0x0600010002#40 (busy []) = .next ((busy []).respond [(.res, 3#16)]) := ⟨rfl, rfl, rfl⟩
theorem witness_IssuingTwiceLeavesTheSameResponses : (busy []).fault = none := rfl
theorem witness_InstancesShareNoState :
    stepInstance (0 : Fin 2) #v[busy [.reset], busy []] = .next #v[State.reset, busy []] ∧
    (1 : Fin 2) ≠ 0 := ⟨rfl, by decide⟩
theorem witness_EveryLegalWordIsTheWordOfItsCommand : decode 0x01000F000F#40 = .ok (.gfmul 0xF#4 0xF#4) := by decide
theorem witness_DecoderAgreesWithTheOpcodeTable : decode 0x0500FF0000#40 = .ok (.subbyte 0xFF#8) ∧
    legalWord 0x0500FF0000#40 = true ∧ legalWord 0x0501000000#40 = false ∧
    ∃ row ∈ opcodeTable, row.selects 0x0500FF0000#40 = true := by decide
theorem witness_BytesCarryTheWordMostSignificantFirst : ([] : List Byte).length < 5 ∧
    [0#8, 0#8, 0#8, 0#8].length < 5 := by decide
theorem witness_AssemblerNeverTruncates : assembleSource ⟨.gfmul, [15, 0]⟩ = .ok (.gfmul 0xF#4 0#4) ∧
    (SourceCommand.mk .gfmul [16, 0]).wellFormed = false := by decide
theorem witness_GfMulObeysTheFieldLaws : (0xF#4 : Nibble) ≠ 0#4 := by decide
theorem witness_ReductionBoundsTheMultiplicand : (0x1E#5).getLsbD 4 = true := by decide
theorem witness_MixColIsLinearColumnByColumn : nib 0x00FF#16 0 = nib 0xFFFF#16 0 ∧
    nib 0x00FF#16 1 = nib 0xFFFF#16 1 ∧ nib 0xFF00#16 2 = nib 0xFFFF#16 2 ∧
    nib 0xFF00#16 3 = nib 0xFFFF#16 3 := by decide
theorem witness_HostSequenceComputesTheSameEncryption : (busy []).fault = none := rfl

end Sys2Proof.Tests
end

namespace Sys2Proof.StateProofs

open Sys2Proof.Machine Sys2Proof.Statements

/-! SUPPORT for the statements of 10_state.md: which registers a command's response leaves with a value, what a
step can leave in the registers, and how the two invariants follow from the registers and the fault record. -/

/-! ### Which registers hold a value after a response -/

/-- The writes of a response, folded over a state, add their registers to those that hold a value. -/
theorem foldl_setReg_ne_none_iff (ws : List (RespReg × Block)) (s : State) (r : RespReg) :
    (ws.foldl (fun t w => t.setReg w.1 (some w.2)) s).reg r ≠ none ↔
      s.reg r ≠ none ∨ r ∈ ws.map Prod.fst := by
  induction ws generalizing s with
  | nil => simp
  | cons w ws ih =>
    rw [List.foldl_cons, ih, List.map_cons, List.mem_cons]
    by_cases hr : r = w.1
    · subst hr; simp
    · rw [State.reg_setReg_of_ne s _ hr]; simp [hr]

/-- After a response the registers that hold a value are exactly those it writes (R26). -/
theorem reg_respond_ne_none_iff (s : State) (ws : List (RespReg × Block)) (r : RespReg) :
    (s.respond ws).reg r ≠ none ↔ r ∈ ws.map Prod.fst := by
  rw [State.respond, foldl_setReg_ne_none_iff]
  simp

/-- The writes of a command's rule name the registers of its write set in R26. -/
theorem map_fst_commandWrites (i : Instr) : (commandWrites i).map Prod.fst = writeSet i.op := by
  cases i <;> rfl

/-- After a command a register holds a value exactly when it is in the command's write set (R26). -/
theorem reg_command_ne_none_iff (i : Instr) (s : State) (r : RespReg) :
    (s.respond (commandWrites i)).reg r ≠ none ↔ r ∈ writeSet i.op := by
  rw [reg_respond_ne_none_iff, map_fst_commandWrites]

/-! ### Faults, STATUS and reads -/

/-- IllegalCommand leaves every response register NONE (R119). -/
@[simp] theorem reg_takeFault_illegal (s : State) (w : CommandWord) (r : RespReg) :
    (s.takeFault (.illegalCommand w)).reg r = none :=
  (s.takeFault_spec _).2.2.2 r

/-- STATUS depends on the fault record alone (R29). -/
theorem status_congr {s t : State} (h : t.fault = s.fault) : t.status = s.status := by
  rw [s.status_of_fault, t.status_of_fault, h]

/-- Reading a register's data leaves STATUS as it is, also where the read records ReadNoValue, which
never shows (R29, R120). -/
theorem status_readData (r : RespReg) (s : State) : (readData r s).status = s.status := by
  obtain ⟨-, -, hsome, hnone⟩ := readData_spec r s
  cases hr : s.reg r with
  | some v => exact status_congr (hsome v hr).1
  | none =>
    have hf := (hnone hr).1
    cases hs : s.fault with
    | some f => exact status_congr (by rw [hf, hs, Option.some_or])
    | none =>
      rw [hs, Option.none_or] at hf
      simp [State.status_of_fault, hf, hs]

/-- Every read is performed, and changes neither a register nor STATUS (R25, R29). -/
theorem performAction_of_isRead {a : HostAction} (h : a.isRead) (s : State) :
    ∃ t, performAction a s = .next t ∧ (∀ r, t.reg r = s.reg r) ∧ t.status = s.status := by
  cases a with
  | readData r => exact ⟨_, rfl, (readData_spec r s).1, status_readData r s⟩
  | readValid r => exact ⟨_, rfl, fun _ => State.reg_observe .., rfl⟩
  | readStatus => exact ⟨_, rfl, fun _ => State.reg_observe .., rfl⟩
  | issue w => exact h.elim
  | reset => exact h.elim
  | resetInFlight w => exact h.elim

/-- The host's actions are reads, issues and resets (R35). -/
theorem isRead_or_isIssue_or_isReset (a : HostAction) : a.isRead ∨ a.isIssue ∨ a.isReset := by
  cases a <;> simp [HostAction.isRead, HostAction.isIssue, HostAction.isReset]

/-! ### What a step can leave in the registers -/

/-- After a step the registers are as they were, or all NONE, or those one command leaves from reset. -/
theorem step_registers {s t : State} (h : step s = .next t) :
    (∀ r, t.reg r = s.reg r) ∨ (∀ r, t.reg r = none) ∨
      ∃ i, ∀ r, t.reg r = (State.reset.respond (commandWrites i)).reg r := by
  rcases step_effects h with rfl |
    ⟨a, rest, -, ⟨w, i, -, -, -, rfl⟩ | ⟨w, e, -, -, -, rfl⟩ | ⟨-, hr, -⟩ | ⟨-, rfl⟩⟩
  · exact .inl fun _ => rfl
  · exact .inr (.inr ⟨i, State.reg_respond_congr _ _ _⟩)
  · exact .inr (.inl (reg_takeFault_illegal _ w))
  · exact .inl hr
  · exact .inr (.inl fun _ => State.reg_applyReset ..)

/-! ### Coherent responses -/

/-- The last clause of `responsesCoherent`: the registers are all NONE, or those one command leaves from reset. -/
def responsesOfOneCommand (s : State) : Prop :=
  (∀ r, s.reg r = none) ∨ ∃ i t, exec i State.reset = .next t ∧ ∀ r, s.reg r = t.reg r

/-- Every step keeps the registers those of one command (R26). -/
theorem step_keeps_responsesOfOneCommand {s t : State} (hs : responsesOfOneCommand s)
    (h : step s = .next t) : responsesOfOneCommand t := by
  rcases step_registers h with hsame | hnone | ⟨i, hi⟩
  · simpa only [responsesOfOneCommand, hsame] using hs
  · exact .inl hnone
  · exact .inr ⟨i, _, exec_eq_respond i _, hi⟩

/-- Where no fault stands, coherence is a matter of the registers. -/
theorem responsesCoherent_of_no_fault {s : State} (hf : s.fault = none) (hr : responsesOfOneCommand s) :
    responsesCoherent s :=
  ⟨by simp [hf], by simp [hf], hr⟩

/-- Every step keeps the responses coherent: a command and a reset leave no fault, IllegalCommand clears the
registers, and ReadNoValue is recorded of a register that is NONE. -/
theorem step_keeps_responsesCoherent {s t : State} (hs : responsesCoherent s) (h : step s = .next t) :
    responsesCoherent t := by
  have ⟨hillegal, hnovalue, hregs⟩ := hs
  have hone : responsesOfOneCommand t := step_keeps_responsesOfOneCommand hregs h
  rcases step_effects h with rfl |
    ⟨a, rest, -, ⟨w, i, -, hf, -, rfl⟩ | ⟨w, e, -, hf, hd, rfl⟩ | ⟨-, hr, hfault⟩ | ⟨-, rfl⟩⟩
  · exact hs
  · exact responsesCoherent_of_no_fault (by simpa using hf) hone
  · have hrec := State.takeFault_illegal_of_none (s := s.setPending rest) w hf
    refine ⟨fun w' hw => ⟨reg_takeFault_illegal _ w, e, ?_⟩, fun r hw => ?_, hone⟩
    · rw [hrec] at hw; cases hw; exact hd
    · rw [hrec] at hw; cases hw
  · rcases hfault with hsame | ⟨r, -, hnone, hrec⟩
    · exact ⟨by simpa only [hsame, hr] using hillegal, by simpa only [hsame, hr] using hnovalue, hone⟩
    · refine ⟨fun w hw => ?_, fun r' hw => ?_, hone⟩
      · rw [hrec] at hw; cases hw
      · rw [hrec] at hw; cases hw; rw [hr, hnone]
  · exact responsesCoherent_of_no_fault rfl hone

/-! ### The trace of one encryption -/

/-- The trace invariant is a matter of the registers alone. -/
theorem traceOfOneEncryption_congr {s t : State} (h : ∀ r, t.reg r = s.reg r) :
    traceOfOneEncryption t ↔ traceOfOneEncryption s := by
  have ht : t = { s with fault := t.fault, pending := t.pending, observed := t.observed } :=
    State.eq_of_reg (fun r => by rw [h r]; cases r <;> rfl) rfl rfl rfl
  rw [ht]
  rfl

/-- With every trace register NONE there is no trace to account for. -/
theorem traceOfOneEncryption_of_no_trace {s : State}
    (h : ∀ r ∈ [RespReg.tr0, .tr1, .tr2, .tr3, .tr4, .tr5, .tr6], s.reg r = none) :
    traceOfOneEncryption s := by
  rintro ⟨r, hmem, hr⟩
  exact absurd (h r hmem) hr

/-- The first round key is the key itself (R99, R101). -/
theorem keyExp_k0 (sbox : Sbox) (key : Block) : (keyExp sbox key).k0 = key := joinBytes_bytes key

/-- What ENCRYPT leaves in the registers is one whole encryption (R107, R113). -/
theorem traceOfOneEncryption_encrypt (pt key : Block) (s : State) :
    traceOfOneEncryption (s.respond (commandWrites (.encrypt pt key))) := by
  intro _
  have hk0 := keyExp_k0 Config.sbox key
  exact ⟨key, addKey pt (keyExp Config.sbox key).k0, (keyExp Config.sbox key).k1, (keyExp Config.sbox key).k2,
    congrArg some hk0, rfl, rfl, congrArg (RoundKeys.mk · _ _) hk0, rfl, rfl, rfl, rfl, _, rfl, rfl, rfl, rfl, rfl⟩

/-- A command other than ENCRYPT has no trace register in its write set (R26). -/
theorem not_mem_writeSet_of_trace {op : Op} (hop : op ≠ .encrypt) {r : RespReg}
    (hr : r ∈ [RespReg.tr0, .tr1, .tr2, .tr3, .tr4, .tr5, .tr6]) : r ∉ writeSet op := by
  revert hop hr
  cases op <;> cases r <;> decide

/-- After any command the trace is that of one encryption: ENCRYPT's own, or none. -/
theorem traceOfOneEncryption_command (i : Instr) (s : State) :
    traceOfOneEncryption (s.respond (commandWrites i)) := by
  by_cases hop : i.op = .encrypt
  · cases i with
    | encrypt pt key => exact traceOfOneEncryption_encrypt pt key s
    | _ => cases hop
  · refine traceOfOneEncryption_of_no_trace fun r hr => ?_
    have hout := not_mem_writeSet_of_trace hop hr
    rwa [← reg_command_ne_none_iff i s, not_not] at hout

/-- Every step keeps the trace that of one encryption. -/
theorem step_keeps_traceOfOneEncryption {s t : State} (hs : traceOfOneEncryption s) (h : step s = .next t) :
    traceOfOneEncryption t := by
  rcases step_registers h with hsame | hnone | ⟨i, hi⟩
  · exact (traceOfOneEncryption_congr hsame).2 hs
  · exact traceOfOneEncryption_of_no_trace fun r _ => hnone r
  · exact (traceOfOneEncryption_congr hi).2 (traceOfOneEncryption_command i _)

/-! ### Well-formed commands -/

/-- Every command is well formed: its operand widths are its operand ranges (R34). -/
theorem instr_wellFormed (i : Instr) : i.wellFormed = true := by
  cases i with
  | gfmul a b => exact (Laws.EncodedFields.gfmul a b).2.2.2
  | subnib x => exact (Laws.EncodedFields.subnib x).2.2.2
  | shiftrows x => exact (Laws.EncodedFields.shiftrows x).2.2.2
  | mixcol x => exact (Laws.EncodedFields.mixcol x).2.2.2
  | subbyte x => exact (Laws.EncodedFields.subbyte x).2.2.2
  | addkey x k => exact (Laws.EncodedFields.addkey x k).2.2.2
  | keyexp key => exact (Laws.EncodedFields.keyexp key).2.2.2
  | encrypt pt key => exact (Laws.EncodedFields.encrypt pt key).2.2.2

/-! ### The statements -/

/-- Settles O25: the coherence of the responses is kept by each effect a step can have. -/
theorem stepKeepsResponsesCoherent : Obligations.StepKeepsResponsesCoherent :=
  fun _ _ => step_keeps_responsesCoherent

/-- Settles O26: a step keeps the registers, clears them, or leaves one command's, and only ENCRYPT's hold a trace. -/
theorem stepKeepsTraceOfOneEncryption : Obligations.StepKeepsTraceOfOneEncryption :=
  fun _ _ => step_keeps_traceOfOneEncryption

/-- Settles O9: every command is a response whose writes are the command's alone and name its write set. -/
theorem commandsWriteExactlyTheirWriteSets : Obligations.CommandsWriteExactlyTheirWriteSets := by
  intro i s s'
  exact ⟨_, _, exec_eq_respond i s, exec_eq_respond i s', State.reg_respond_congr s s' _,
    reg_command_ne_none_iff i s⟩

/-- Settles O23: STATUS case by case on the fault record, and the effect of a STATUS read. -/
theorem statusIsTheProjectionOfTheFaultRecord : Obligations.StatusIsTheProjectionOfTheFaultRecord := by
  refine ⟨fun s => ⟨fun w h => ?illegalCommand, fun r h => ?readNoValue, fun h => ?noFault⟩,
    fun s rest hp => ?read⟩
  case illegalCommand | readNoValue | noFault => rw [s.status_of_fault, h]
  case read =>
    exact ⟨readStatus (s.setPending rest), step_of_pending hp, by simp [readStatus], rfl, rfl⟩

/-- Settles O24: a read leaves the registers and STATUS, so a changed register comes of an issue or a reset. -/
theorem readsChangeNoRegister : Obligations.ReadsChangeNoRegister := by
  refine ⟨fun s r rest hp => ?_, fun s a rest hp ha => ?_, fun s t a rest r hp h hne => ?_⟩
  · exact ⟨readValid r (s.setPending rest), step_of_pending hp, rfl, by simp [readValid, State.validBit]⟩
  · obtain ⟨t, ht, hreg, hst⟩ := performAction_of_isRead ha (s.setPending rest)
    exact ⟨t, (step_of_pending hp).trans ht, by simpa using hreg, hst⟩
  · refine (isRead_or_isIssue_or_isReset a).resolve_left fun ha => ?_
    obtain ⟨t', ht', hreg, -⟩ := performAction_of_isRead ha (s.setPending rest)
    rw [step_of_pending hp, ht'] at h
    injection h with h
    exact hne (by rw [← h, hreg, State.reg_setPending])

/-- Settles O28: the word decides between a command and IllegalCommand, and either leaves the registers and the
fault record without regard to the registers before. -/
theorem responsesIgnoreEarlierState : Obligations.ResponsesIgnoreEarlierState := by
  intro w s s' t t' hfault h h'
  suffices hboth : (∀ r, t.reg r = t'.reg r) ∧ t.fault = t'.fault from
    ⟨hboth.1, hboth.2, status_congr hboth.2⟩
  obtain ⟨hf, hcase⟩ := issueWord_cases h
  obtain ⟨hf', hcase'⟩ := issueWord_cases h'
  rcases hcase with ⟨i, hi, rfl⟩ | ⟨⟨e, he⟩, rfl⟩
  · rcases hcase' with ⟨i', hi', rfl⟩ | ⟨⟨e', he'⟩, rfl⟩
    · obtain rfl : i = i' := Except.ok.inj (hi.symm.trans hi')
      exact ⟨State.reg_respond_congr s s' _, by simpa using hfault⟩
    · cases hi.symm.trans he'
  · rcases hcase' with ⟨i', hi', rfl⟩ | ⟨-, rfl⟩
    · cases he.symm.trans hi'
    · exact ⟨by simp, by simp [State.takeFault_illegal_of_none w, hf, hf']⟩

/-- Settles O12: an issue of a word that decodes, with no fault standing, is the command's own `exec`. -/
theorem stepRunsTheDecodedCommand : Obligations.StepRunsTheDecodedCommand :=
  ⟨fun _ _ _ i hf hp hd => ⟨instr_wellFormed i, (step_of_pending hp).trans (issueWord_of_ok hd hf)⟩,
    fun _ => step_of_idle⟩

/-- Settles O27: at reset every register is NONE and no fault stands. -/
theorem invariantsHoldAtReset : Obligations.InvariantsHoldAtReset := by
  intro actions
  have hnone : ∀ r, (runStart actions).reg r = none := by simp [runStart]
  exact ⟨responsesCoherent_of_no_fault rfl (.inl hnone), traceOfOneEncryption_of_no_trace fun r _ => hnone r⟩

end Sys2Proof.StateProofs

namespace Sys2Proof.MemoryProofs

open Sys2Proof.Machine Sys2Proof.Statements

/-! SUPPORT for the statements of 20_memory.md: what an action does to the host's fields, that the decoder reads
back a command's own word, and a word and a response as bytes. -/

/-! ### The host's actions and observations -/

/-- Performing an action leaves the actions still to happen as they are, and adds to the observations at most
one, a read's (R25, R29, R146). -/
theorem performAction_host_fields {a : HostAction} {s t : State} (h : performAction a s = .next t) :
    t.pending = s.pending ∧ (t.observed = s.observed ∨ a.isRead ∧ ∃ o, t.observed = s.observed ++ [o]) := by
  cases a with
  | issue w =>
    obtain ⟨-, ⟨i, -, rfl⟩ | ⟨-, rfl⟩⟩ := issueWord_cases h
    · exact ⟨State.respond_pending .., .inl (State.respond_observed ..)⟩
    · obtain ⟨-, hp, ho, -⟩ := s.takeFault_spec (.illegalCommand w)
      exact ⟨hp, .inl ho⟩
  | readData r =>
    injection h with h
    subst h
    obtain ⟨-, hp, hsome, hnone⟩ := readData_spec r s
    refine ⟨hp, ?_⟩
    cases hr : s.reg r with
    | some v => exact .inr ⟨trivial, _, (hsome v hr).2⟩
    | none => exact .inl (hnone hr).2
  | readValid r | readStatus => injection h with h; subst h; exact ⟨rfl, .inr ⟨trivial, _, rfl⟩⟩
  | reset | resetInFlight w => injection h with h; subst h; exact ⟨rfl, .inl rfl⟩

/-! ### The word of a command -/

/-- The bits of a value at and above its width are 0. -/
theorem extractLsb'_eq_zero_of_le {n start : Nat} (x : BitVec n) (len : Nat) (h : n ≤ start) :
    x.extractLsb' start len = 0#len := by
  ext i hi
  simp [BitVec.getLsbD_of_ge x (start + i) (by omega)]

/-- The decoder reads back the command a word was made of. Where an operand is narrower than its field the
field's other bits are the zeros the decoder asks for (R57, R58); elsewhere it takes the fields as they are. -/
theorem decode_encode (i : Instr) : decode (encode i) = .ok i := by
  rw [encode, decode_packWord]
  cases i with
  | gfmul a b | subbyte x =>
    simp [Instr.op, Op.opcode, Instr.encodeA, Instr.encodeB, decodeFields, ifReservedZero,
      BitVec.extractLsb'_setWidth_of_le, extractLsb'_eq_zero_of_le]
  | subnib x | shiftrows x | mixcol x | addkey x k | keyexp key | encrypt pt key => rfl

/-- A command's word, issued with no fault standing, leaves the command's response. -/
theorem issueWord_encode (i : Instr) {s : State} (hs : s.fault = none) :
    issueWord (encode i) s = .next (s.respond (commandWrites i)) := by
  rw [issueWord_of_ok (decode_encode i) hs, exec_eq_respond]

/-! ### Words and responses as bytes -/

/-- A slice of a slice is one slice. -/
theorem extractLsb'_extractLsb' {n start len start' len' : Nat} (x : BitVec n) (h : start' + len' ≤ len) :
    (x.extractLsb' start len).extractLsb' start' len' = x.extractLsb' (start + start') len' := by
  ext i hi
  have hlt : start' + i < len := by omega
  simp [hlt, Nat.add_assoc]

/-- The bytes of a word are its opcode and then its two fields, each high byte first (R39, R55). -/
theorem bytesOfWord_eq_fields (w : CommandWord) :
    bytesOfWord w = opcField w :: (bytesOfResponse (fieldA w) ++ bytesOfResponse (fieldB w)) := by
  simp [bytesOfWord, opcField, bytesOfResponse, fieldA, fieldB, extractLsb'_extractLsb']

/-- A response's bytes are the two it was joined from, high byte first (R38, R39). -/
theorem bytesOfResponse_append (hi lo : Byte) : bytesOfResponse (hi ++ lo) = [hi, lo] := by
  rw [bytesOfResponse, BitVec.extractLsb'_append_eq_left, BitVec.extractLsb'_append_eq_right]

/-- A word joined from five bytes is carried as those bytes, in that order (R39). -/
theorem bytesOfWord_packWord_append (opc ah al bh bl : Byte) :
    bytesOfWord (packWord opc (ah ++ al) (bh ++ bl)) = [opc, ah, al, bh, bl] := by
  rw [bytesOfWord_eq_fields, opcField_packWord, fieldA_packWord, fieldB_packWord, bytesOfResponse_append,
    bytesOfResponse_append]
  rfl

/-- Fewer than five bytes make no word. -/
theorem wordOfBytes_of_length_lt {bs : List Byte} (h : bs.length < 5) :
    wordOfBytes bs = .error (.truncated bs.length) := by
  unfold wordOfBytes
  split
  · simp only [List.length_cons] at h; omega
  · rfl

/-- Where the bytes make a word, its decoder decides, and the bytes after it are left. -/
theorem decodeBytes_of_wordOfBytes {bs rest : List Byte} {w : CommandWord} (h : wordOfBytes bs = .ok (w, rest)) :
    decodeBytes bs = (decode w).map (·, rest) := by
  rw [decodeBytes, h]; rfl

/-- Where the bytes make no word, nothing is decoded. -/
theorem decodeBytes_of_error {bs : List Byte} {e : DecodeError} (h : wordOfBytes bs = .error e) :
    decodeBytes bs = .error e := by
  rw [decodeBytes, h]; rfl

/-- A command carried as bytes is read back whole, and the bytes after it are left (R39). -/
theorem decodeBytes_encodeBytes (i : Instr) (rest : List Byte) :
    decodeBytes (encodeBytes i ++ rest) = .ok (i, rest) := by
  rw [encodeBytes, decodeBytes_of_wordOfBytes (wordOfBytes_bytesOfWord _ rest), decode_encode]; rfl

/-! ### The statements -/

/-- Settles O14: a step with an action pending takes it off the list and performs it, and of the actions only a
read observes anything. -/
theorem stepTakesOneActionInOrder : Obligations.StepTakesOneActionInOrder := by
  intro s t a rest hp h
  rw [step_of_pending hp] at h
  exact performAction_host_fields h

/-- Settles O29: the first issue leaves no fault, so the second runs too, and a response does not depend on the
registers before it. -/
theorem issuingTwiceLeavesTheSameResponses : Obligations.IssuingTwiceLeavesTheSameResponses := by
  intro i s hs
  have hfault : (s.respond (commandWrites i)).fault = none := by rw [State.respond_fault, hs]
  exact ⟨_, _, issueWord_encode i hs, issueWord_encode i hfault, State.reg_respond_congr _ s _⟩

/-- Settles O34: the bytes of a word put together again are the word, and the decoder reads its command back. -/
theorem bytesCarryTheWordMostSignificantFirst : Obligations.BytesCarryTheWordMostSignificantFirst :=
  ⟨decodeBytes_encodeBytes, bytesOfWord_packWord_append, bytesOfResponse_append,
    fun _ h => decodeBytes_of_error (wordOfBytes_of_length_lt h)⟩

end Sys2Proof.MemoryProofs

namespace Sys2Proof.EncodingProofs

open Sys2Proof.Machine Sys2Proof.StateProofs Sys2Proof.MemoryProofs

/-! SUPPORT for the statements of 30_encoding.md: that the decoder inverts the encoder on every word, which words
a row of the opcode table selects, a word as a number, and the assembler's check. -/

/-! ### The decoder inverts the encoder -/

/-- An operand narrower than its field is the whole field where the field's other bits are 0 (R57, R58). -/
theorem setWidth_extractLsb'_of_high_eq_zero {x : Block} {n : Nat} (h : x.extractLsb' n (16 - n) = 0#(16 - n)) :
    (x.extractLsb' 0 n).setWidth 16 = x := by
  ext i hi
  by_cases hn : i < n
  · simp [hn, hi]
  · have hbit := congrArg (·.getLsbD (i - n)) h
    have hlt : i - n < 16 - n := by omega
    have hin : n + (i - n) = i := by omega
    simpa [hn, hlt, hin, hi] using hbit.symm

/-- What decodes to a command is its operation's opcode and its two encoded fields (R57, R60). The decoder's
arms are numbered as the opcodes are; the ninth rejects. -/
theorem fields_of_decodeFields {opc : BitVec 8} {a b : Block} {i : Instr} (h : decodeFields opc a b = .ok i) :
    i.op.opcode = opc ∧ i.encodeA = a ∧ i.encodeB = b := by
  unfold decodeFields at h
  split at h
  case h_1 =>
    simp only [ifReservedZero_ok_iff, Bool.and_eq_true, beq_iff_eq] at h
    obtain ⟨⟨ha, hb⟩, rfl⟩ := h
    exact ⟨rfl, setWidth_extractLsb'_of_high_eq_zero ha, setWidth_extractLsb'_of_high_eq_zero hb⟩
  case h_5 =>
    simp only [ifReservedZero_ok_iff, Bool.and_eq_true, beq_iff_eq] at h
    obtain ⟨⟨ha, rfl⟩, rfl⟩ := h
    exact ⟨rfl, setWidth_extractLsb'_of_high_eq_zero ha, rfl⟩
  case h_2 | h_3 | h_4 | h_7 =>
    simp only [ifReservedZero_ok_iff, beq_iff_eq] at h
    obtain ⟨rfl, rfl⟩ := h
    exact ⟨rfl, rfl, rfl⟩
  case h_6 | h_8 => cases h; exact ⟨rfl, rfl, rfl⟩
  case h_9 => cases h

/-- The word of the command a word decodes to is that word: the decoder ignores no bit (R58). -/
theorem encode_of_decode {w : CommandWord} {i : Instr} (h : decode w = .ok i) : encode i = w := by
  obtain ⟨hopc, ha, hb⟩ := fields_of_decodeFields h
  rw [encode, hopc, ha, hb, packWord_fields]

/-- A word decodes to a command exactly when it is the command's word. -/
theorem decode_eq_ok_iff {w : CommandWord} {i : Instr} : decode w = .ok i ↔ encode i = w :=
  ⟨encode_of_decode, fun h => h ▸ decode_encode i⟩

/-! ### Reserved bits and the opcode table -/

/-- How many low bits of field A an operation's operand takes (R57). -/
def widthA : Op → Nat
  | .gfmul => 4
  | .subbyte => 8
  | .keyexp => 0
  | .subnib | .shiftrows | .mixcol | .addkey | .encrypt => 16

/-- How many low bits of field B an operation's operand takes (R57). -/
def widthB : Op → Nat
  | .gfmul => 4
  | .addkey | .keyexp | .encrypt => 16
  | .subnib | .shiftrows | .mixcol | .subbyte => 0

/-- The bits of a field from bit `n` up: those reserved where the operand takes `n` bits (R57). -/
def bitsFrom (n : Nat) : Block := BitVec.allOnes 16 <<< n

/-- A field has its bits from `n` up 0 exactly when it is an `n`-bit operand extended with zeros. -/
theorem and_bitsFrom_eq_zero_iff (x : Block) (n : Nat) :
    x &&& bitsFrom n = 0#16 ↔ ∃ y : BitVec n, y.setWidth 16 = x := by
  constructor
  · intro h
    refine ⟨x.extractLsb' 0 n, setWidth_extractLsb'_of_high_eq_zero ?_⟩
    ext i hi
    have hbit := congrArg (·.getLsbD (n + i)) h
    have hlt : n + i < 16 := by omega
    simpa [bitsFrom, hlt, -BitVec.reduceAllOnes] using hbit
  · rintro ⟨y, rfl⟩
    ext i hi
    by_cases hn : i < n
    · simp [bitsFrom, hn]
    · simp [BitVec.getLsbD_of_ge y i (by omega)]

/-- A field that holds no operand is 0. -/
theorem zero_eq_setWidth_of_no_bits (y : BitVec 0) : 0#16 = y.setWidth 16 := by
  rw [y.eq_nil]; rfl

/-- Two fields are those of a command of an operation exactly when the operation's operands fill them. -/
theorem exists_instr_fields_iff (op : Op) (a b : Block) :
    (∃ i : Instr, i.op = op ∧ i.encodeA = a ∧ i.encodeB = b) ↔
      (∃ x : BitVec (widthA op), x.setWidth 16 = a) ∧ ∃ y : BitVec (widthB op), y.setWidth 16 = b := by
  constructor
  · rintro ⟨i, rfl, rfl, rfl⟩
    cases i with
    | gfmul a b => exact ⟨⟨a, rfl⟩, ⟨b, rfl⟩⟩
    | subnib x | shiftrows x | mixcol x | subbyte x => exact ⟨⟨x, rfl⟩, ⟨0#0, rfl⟩⟩
    | addkey x k => exact ⟨⟨x, rfl⟩, ⟨k, rfl⟩⟩
    | keyexp key => exact ⟨⟨0#0, rfl⟩, ⟨key, rfl⟩⟩
    | encrypt pt key => exact ⟨⟨pt, rfl⟩, ⟨key, rfl⟩⟩
  · rintro ⟨⟨x, rfl⟩, ⟨y, rfl⟩⟩
    cases op with
    | gfmul => exact ⟨.gfmul x y, rfl, rfl, rfl⟩
    | subnib => exact ⟨.subnib x, rfl, rfl, zero_eq_setWidth_of_no_bits y⟩
    | shiftrows => exact ⟨.shiftrows x, rfl, rfl, zero_eq_setWidth_of_no_bits y⟩
    | mixcol => exact ⟨.mixcol x, rfl, rfl, zero_eq_setWidth_of_no_bits y⟩
    | subbyte => exact ⟨.subbyte x, rfl, rfl, zero_eq_setWidth_of_no_bits y⟩
    | addkey => exact ⟨.addkey x y, rfl, rfl, rfl⟩
    | keyexp => exact ⟨.keyexp y, rfl, zero_eq_setWidth_of_no_bits x, rfl⟩
    | encrypt => exact ⟨.encrypt x y, rfl, rfl, rfl⟩

/-- A word decodes to a command of an operation exactly when it has the operation's opcode and each of its
fields is 0 above the operand (R58, R60). -/
theorem exists_decode_op_iff (w : CommandWord) (op : Op) :
    (∃ i, decode w = .ok i ∧ i.op = op) ↔ opcField w = op.opcode ∧
      fieldA w &&& bitsFrom (widthA op) = 0#16 ∧ fieldB w &&& bitsFrom (widthB op) = 0#16 := by
  rw [and_bitsFrom_eq_zero_iff, and_bitsFrom_eq_zero_iff, ← exists_instr_fields_iff]
  constructor
  · rintro ⟨i, hd, rfl⟩
    obtain ⟨hopc, ha, hb⟩ := fields_of_decodeFields hd
    exact ⟨hopc.symm, i, rfl, ha, hb⟩
  · rintro ⟨hopc, i, rfl, ha, hb⟩
    refine ⟨i, decode_eq_ok_iff.2 ?_, rfl⟩
    rw [encode, ha, hb, ← hopc, packWord_fields]

/-- A row of the opcode table asks for its operation's opcode and for zeros at its reserved bits (R56, R57). -/
theorem opcodeTable_mask_pattern : ∀ row ∈ opcodeTable,
    row.mask = packWord 0xFF#8 (bitsFrom (widthA row.op)) (bitsFrom (widthB row.op)) ∧
      row.pattern = packWord row.op.opcode 0#16 0#16 := by
  decide

/-- A row selects exactly the words that decode to a command of its operation (R60). -/
theorem selects_iff_decode {row : OpcodeRow} (hrow : row ∈ opcodeTable) (w : CommandWord) :
    row.selects w = true ↔ ∃ i, decode w = .ok i ∧ i.op = row.op := by
  obtain ⟨hmask, hpattern⟩ := opcodeTable_mask_pattern row hrow
  have hand := packWord_and_packWord (opcField w) 0xFF#8 (fieldA w) (fieldB w) (bitsFrom (widthA row.op))
    (bitsFrom (widthB row.op))
  have hopc : opcField w &&& 0xFF#8 = opcField w := BitVec.and_allOnes
  rw [packWord_fields, hopc] at hand
  rw [exists_decode_op_iff, OpcodeRow.selects, beq_iff_eq, hmask, hpattern, hand, packWord_inj]

/-- Every operation has a row (R56). -/
theorem exists_row_of_op (op : Op) : ∃ row ∈ opcodeTable, row.op = op := by
  cases op <;> decide

/-- No two rows are for one operation (R56). -/
theorem row_eq_of_op_eq : ∀ row ∈ opcodeTable, ∀ row' ∈ opcodeTable, row.op = row'.op → row = row' := by
  decide

/-! ### A word as a number -/

/-- A word's number: its opcode times 2^32, plus its A field times 2^16, plus its B field (R55). -/
theorem toNat_packWord (opc : BitVec 8) (a b : Block) :
    (packWord opc a b).toNat = 0x100000000 * opc.toNat + 0x10000 * a.toNat + b.toNat := by
  rw [packWord, BitVec.toNat_append, BitVec.toNat_append, ← Nat.shiftLeft_add_eq_or_of_lt a.isLt,
    ← Nat.shiftLeft_add_eq_or_of_lt b.isLt, Nat.shiftLeft_eq, Nat.shiftLeft_eq]
  omega

/-- The number of a command's word (R62). -/
theorem toNat_encode (i : Instr) :
    (encode i).toNat = 0x100000000 * i.op.opcode.toNat + 0x10000 * i.encodeA.toNat + i.encodeB.toNat :=
  toNat_packWord _ _ _

/-- A word's own number, read as the opcode table numbers words, is the word. -/
theorem tableWord_toNat (w : CommandWord) : tableWord 40 w.toNat = w := by
  rw [tableWord, Nat.mod_eq_of_lt w.isLt, BitVec.ofNat_toNat, BitVec.setWidth_eq]

/-- A placed word is what the next step issues, on the state before it was placed. -/
theorem step_withFetchWord (s : State) (w : CommandWord) :
    step (s.withFetchWord 40 w.toNat) = issueWord w s := by
  rw [State.withFetchWord, tableWord_toNat]
  exact step_of_pending (placeWord_pending s w)

/-! ### The assembler's check -/

/-- What the assembler makes of a command: where its operands are in range, the command built of them (R61). -/
theorem assembleSource_eq_ok_iff (c : SourceCommand) (i : Instr) :
    assembleSource c = .ok i ↔ c.wellFormed = true ∧ buildInstr c.op c.operands = some i := by
  unfold assembleSource
  split
  case h_1 hwf hbuild => simp [hwf, hbuild]
  case h_2 hno => exact ⟨nofun, fun ⟨hwf, hbuild⟩ => (hno i hwf hbuild).elim⟩

/-- A command built again from its own operands is the command. -/
theorem buildInstr_source (i : Instr) : buildInstr i.source.op i.source.operands = some i := by
  cases i <;> simp [Instr.source, buildInstr]

/-- A command built of operands in range has exactly those operands: none is truncated (R61). -/
theorem source_of_buildInstr {op : Op} {vs : List Nat} {i : Instr}
    (hwf : withinBounds op.operandBounds vs = true) (h : buildInstr op vs = some i) : i.source = ⟨op, vs⟩ := by
  unfold buildInstr at h
  split at h
  case h_9 => cases h
  all_goals
    cases h
    simp only [Op.operandBounds, withinBounds, Bool.and_true, Bool.and_eq_true, decide_eq_true_eq] at hwf
    simp [Instr.source, Nat.mod_eq_of_lt, hwf]

/-! ### The statements -/

/-- Settles O31: each command's word carries its operands in fields that the decoder takes back. -/
theorem decodeUndoesEncode : Obligations.DecodeUndoesEncode := decode_encode

/-- Settles O32: a word that decodes has the opcode and the fields of its command, and nothing else. -/
theorem everyLegalWordIsTheWordOfItsCommand : Obligations.EveryLegalWordIsTheWordOfItsCommand :=
  fun _ _ => encode_of_decode

/-- Settles O13: the placed word is issued next, and it decodes to its command. -/
theorem placedWordRunsNext : Obligations.PlacedWordRunsNext := by
  intro s i hs
  refine ⟨?_, ?_⟩
  · rw [step_withFetchWord, issueWord_of_ok (decode_encode i) hs]
  · rw [decodeTableWord, tableWord_toNat, decode_encode]; rfl

/-- Settles O33: a row selects the words that decode to its operation, and each operation has one row. -/
theorem decoderAgreesWithTheOpcodeTable : Obligations.DecoderAgreesWithTheOpcodeTable := by
  refine ⟨fun w => ?legal, fun w i hd row hrow => ?ownRow, fun w row row' hrow hrow' h h' => ?disjoint, ?opc⟩
  case legal =>
    rw [legalWord, List.any_eq_true]
    constructor
    · rintro ⟨i, hd⟩
      obtain ⟨row, hrow, hop⟩ := exists_row_of_op i.op
      exact ⟨row, hrow, (selects_iff_decode hrow w).2 ⟨i, hd, hop.symm⟩⟩
    · rintro ⟨row, hrow, h⟩
      obtain ⟨i, hd, -⟩ := (selects_iff_decode hrow w).1 h
      exact ⟨i, hd⟩
  case ownRow =>
    rw [selects_iff_decode hrow]
    simp [hd, eq_comm]
  case disjoint =>
    obtain ⟨i, hd, hop⟩ := (selects_iff_decode hrow w).1 h
    obtain ⟨i', hd', hop'⟩ := (selects_iff_decode hrow' w).1 h'
    obtain rfl : i = i' := Except.ok.inj (hd.symm.trans hd')
    exact row_eq_of_op_eq row hrow row' hrow' (hop.symm.trans hop')
  case opc => decide

/-- Settles O35: each command's opcode and fields, put into the number of its word. -/
theorem wordsFollowTheSyntaxTable : Obligations.WordsFollowTheSyntaxTable := by
  refine ⟨fun a b => ?gfmul, fun x => ?subnib, fun x => ?shiftrows, fun x => ?mixcol, fun x => ?subbyte,
    fun x k => ?addkey, fun key => ?keyexp, fun pt key => ?encrypt⟩
  case gfmul =>
    rw [toNat_encode, Instr.encodeA, Instr.encodeB, BitVec.toNat_setWidth_of_le (by decide),
      BitVec.toNat_setWidth_of_le (by decide)]
    rfl
  case subbyte =>
    rw [toNat_encode, Instr.encodeA, BitVec.toNat_setWidth_of_le (by decide)]
    rfl
  case subnib | shiftrows | mixcol | addkey | keyexp | encrypt => exact toNat_encode _

/-- Settles O37: the check admits operands below their widths' bounds, which building the command keeps. -/
theorem assemblerNeverTruncates : Obligations.AssemblerNeverTruncates := by
  refine ⟨fun i => ?own, fun c i h => ?operands, fun c h => ?refused⟩
  case own => exact (assembleSource_eq_ok_iff _ i).2 ⟨instr_wellFormed i, buildInstr_source i⟩
  case operands =>
    obtain ⟨hwf, hbuild⟩ := (assembleSource_eq_ok_iff c i).1 h
    exact source_of_buildInstr hwf hbuild
  case refused => simp [assembleSource, h]

/-- Settles O36: seven closed lines and words, which the assembler and the decoder evaluate. -/
theorem workedEncodingsDecode : Obligations.WorkedEncodingsDecode := by
  unfold Obligations.WorkedEncodingsDecode
  decide

end Sys2Proof.EncodingProofs

namespace Sys2Proof.CommandProofs

open Sys2Proof.Machine Sys2Proof.Statements Sys2Proof.StateProofs

/-! SUPPORT for the statements made command by command: which words of an opcode run the command and which raise
IllegalCommand, what a command answers, and the value an issued word leaves in RES. -/

/-! ### The words of an opcode -/

/-- A word that decodes runs its command (30_encoding.md R60). -/
theorem runsCommand_of_decode {w : CommandWord} {i : Instr} (h : decode w = .ok i) : runsCommand w i :=
  ⟨h, fun _ hs => issueWord_of_ok h hs⟩

/-- A word that does not decode raises IllegalCommand, with all its effects (60_exceptions.md R118, R119). -/
theorem takesIllegalCommand_of_decode {w : CommandWord} {e : DecodeError} (h : decode w = .error e) :
    takesIllegalCommand w := by
  intro s hs
  have hfault := State.takeFault_illegal_of_none w hs
  obtain ⟨-, hpending, hobserved, hreg⟩ := s.takeFault_spec (.illegalCommand w)
  refine ⟨_, issueWord_of_error h hs, hreg, hfault, ?_, hpending, hobserved⟩
  rw [State.status_of_fault, hfault]

/-- Where the decoder's arm for an opcode is a check of reserved bits, that check tells the opcode's legal
words from its illegal ones (30_encoding.md R58). -/
theorem wordsOf_of_decodeFields {opc : BitVec 8} {check : Block → Block → Bool} {i : Block → Block → Instr}
    {reservedZero : Block → Block → Prop}
    (hdecode : ∀ a b, decodeFields opc a b = ifReservedZero (check a b) (i a b))
    (hcheck : ∀ a b, check a b = true ↔ reservedZero a b) : wordsOf opc reservedZero i := by
  intro a b
  have hd : decode (packWord opc a b) = ifReservedZero (check a b) (i a b) :=
    (decode_packWord opc a b).trans (hdecode a b)
  rw [← hcheck]
  constructor
  · intro h
    exact runsCommand_of_decode (hd.trans (if_pos h))
  · intro h
    exact takesIllegalCommand_of_decode (hd.trans (if_neg h))

/-! ### What a command answers -/

/-- Writes to distinct registers leave in each register the value listed for it, and keep the others. -/
theorem reg_foldl_setReg_eq_lookup {ws : List (RespReg × Block)} (hnd : (ws.map Prod.fst).Nodup) (s : State)
    (r : RespReg) :
    (ws.foldl (fun t w => t.setReg w.1 (some w.2)) s).reg r = (ws.lookup r).or (s.reg r) := by
  induction ws generalizing s with
  | nil => rfl
  | cons w ws ih =>
    obtain ⟨r', v⟩ := w
    obtain ⟨hnew, hrest⟩ := List.nodup_cons.1 hnd
    rw [List.foldl_cons, ih hrest]
    by_cases hr : r = r'
    · subst hr
      have hnone : ws.lookup r = none := by
        refine List.lookup_eq_none_iff.2 fun p hp => ?_
        have hne : r ≠ p.1 := fun h => hnew (List.mem_map.2 ⟨p, hp, h.symm⟩)
        simpa using hne
      simp [hnone]
    · rw [State.reg_setReg_of_ne s _ hr, List.lookup_cons, beq_false_of_ne hr]

/-- No command's rule writes a register twice (10_state.md R26). -/
theorem nodup_map_fst_commandWrites (i : Instr) : ((commandWrites i).map Prod.fst).Nodup := by
  rw [map_fst_commandWrites]
  cases i.op <;> decide

/-- After a command each register holds the value the command's rule lists for it, or NONE (R26). -/
theorem reg_respond_commandWrites (i : Instr) (s : State) (r : RespReg) :
    (s.respond (commandWrites i)).reg r = (commandWrites i).lookup r := by
  rw [State.respond, reg_foldl_setReg_eq_lookup (nodup_map_fst_commandWrites i), State.reg_clearResponses,
    Option.or_none]

/-- Every command answers with the writes of its rule, and leaves the fault record and the host's fields. -/
theorem answersWith_commandWrites (i : Instr) : answersWith i (commandWrites i) := fun s =>
  ⟨_, exec_eq_respond i s, reg_respond_commandWrites i s, State.respond_fault .., State.respond_pending ..,
    State.respond_observed ..⟩

/-- A word that decodes leaves in RES what its command's rule writes there. -/
theorem givesRes_of_decode {w : CommandWord} {i : Instr} {v : Block} (hd : decode w = .ok i)
    (hv : (commandWrites i).lookup .res = some v) : givesRes w v := by
  intro s hs
  refine ⟨_, (issueWord_of_ok hd hs).trans (exec_eq_respond i s), ?_⟩
  exact (reg_respond_commandWrites i s .res).trans hv

end Sys2Proof.CommandProofs

namespace Sys2Proof.GfMultiplierProofs

open Sys2Proof.Machine Sys2Proof.Statements Sys2Proof.MemoryProofs Sys2Proof.CommandProofs
open Polynomial (X)

/-! SUPPORT for the statements of 40_gf_multiplier.md. An element stands for a residue modulo x^4 + x + 1. The
multiplier's registers stand for `p + aa * bb`, which no iteration changes; after four the multiplier is used up
and the accumulator is the product. The laws of the field are then those of the ring of residues. -/

/-! ### The registers of the multiplier -/

/-- XOR with GF_POLY clears a set bit 4 and flips bits 1 and 0 (R68). -/
theorem xor_gfPoly_of_bit_four_set (aa : BitVec 5) (h : aa.getLsbD 4 = true) :
    aa ^^^ gfPoly = (aa &&& 0b01111#5) ^^^ 0b00011#5 := by
  revert aa
  decide

/-- Bit 4 of the multiplicand is 0 once it is shifted and reduced (R68). -/
theorem getLsbD_four_shiftReduce (aa : BitVec 5) : (shiftReduce aa).getLsbD 4 = false := by
  rw [shiftReduce]
  split
  case isTrue hset => rw [xor_gfPoly_of_bit_four_set _ hset]; simp
  case isFalse hclear => simpa using hclear

/-- Shifting and reducing, on the four bits that are kept: the bit shifted out comes back as `x + 1` (R68). -/
theorem setWidth_shiftReduce (aa : BitVec 5) : (shiftReduce aa).setWidth 4 =
    aa.setWidth 4 <<< 1 ^^^ if (aa.setWidth 4).getLsbD 3 then 0b0011#4 else 0#4 := by
  revert aa
  decide

/-- After iterations, one or more, the multiplicand fits four bits (R68). -/
theorem getLsbD_four_aa_gfmIterations (n : Nat) (g : GfmRegs) :
    (gfmIterations (n + 1) g).aa.getLsbD 4 = false := by
  induction n generalizing g with
  | zero => exact getLsbD_four_shiftReduce g.aa
  | succ n ih => exact ih (gfmIterate g)

/-- Iterations shift the multiplier right, one bit each (R67). -/
theorem bb_gfmIterations (n : Nat) (g : GfmRegs) : (gfmIterations n g).bb = g.bb >>> n := by
  induction n generalizing g with
  | zero => exact (BitVec.ushiftRight_zero ..).symm
  | succ n ih =>
    rw [gfmIterations, ih, gfmIterate, ← BitVec.shiftRight_add, Nat.add_comm]

/-- The final mask changes no bit: the product is the accumulator after four iterations (R68). -/
theorem gfMul_eq_accumulator (a b : Nibble) : gfMul a b = (gfmIterations 4 ⟨0#4, a.setWidth 5, b⟩).p :=
  mask4_eq _

/-! ### Elements as polynomials -/

/-- Bit `i` of an element is the coefficient of `x^i` (R65). -/
theorem coeff_fieldPoly (a : Nibble) (i : Nat) : (fieldPoly a).coeff i = if a.getLsbD i then 1 else 0 := by
  have hterm (j : Nat) : (if a.getLsbD j then X ^ j else 0 : Polynomial (ZMod 2)).coeff i =
      if i = j then (if a.getLsbD j then 1 else 0) else 0 := by
    split <;> simp [Polynomial.coeff_X_pow]
  rw [fieldPoly, Polynomial.finsetSum_coeff, Finset.sum_congr rfl fun j _ => hterm j, Finset.sum_ite_eq]
  by_cases hi : i < 4
  · simp [hi]
  · simp [hi, BitVec.getLsbD_of_ge a i (by omega)]

/-- Addition of elements is XOR (R66). -/
theorem fieldPoly_xor (a b : Nibble) : fieldPoly (a ^^^ b) = fieldPoly a + fieldPoly b := by
  ext i
  simp only [Polynomial.coeff_add, coeff_fieldPoly, BitVec.getLsbD_xor]
  cases a.getLsbD i <;> cases b.getLsbD i <;> decide

@[simp] theorem fieldPoly_zero : fieldPoly 0#4 = 0 := by simp [fieldPoly]
@[simp] theorem fieldPoly_one : fieldPoly 1#4 = 1 := by simp [fieldPoly]
@[simp] theorem fieldPoly_three : fieldPoly 0b0011#4 = X + 1 := by
  simp [fieldPoly, Finset.sum_range_succ, add_comm]

/-- An element is `x` times the element shifted right, and 1 where its low bit is set. -/
theorem fieldPoly_eq_X_mul_add (b : Nibble) :
    fieldPoly b = X * fieldPoly (b >>> 1) + if b.getLsbD 0 then 1 else 0 := by
  ext i
  cases i with
  | zero => by_cases hlow : b.getLsbD 0 <;> simp_all [coeff_fieldPoly]
  | succ i => split <;> simp [coeff_fieldPoly, Polynomial.coeff_one, Nat.add_comm]

/-- `x` times an element is the element shifted left, and `x^4` where a bit is shifted out. -/
theorem X_mul_fieldPoly (a : Nibble) :
    X * fieldPoly a = fieldPoly (a <<< 1) + if a.getLsbD 3 then X ^ 4 else 0 := by
  simp [fieldPoly, Finset.sum_range_succ, mul_add, ← pow_succ', ← pow_two]

/-- An element's polynomial has degree below 4. -/
theorem degree_fieldPoly_lt (a : Nibble) : (fieldPoly a).degree < 4 := by
  refine (Polynomial.degree_lt_iff_coeff_zero _ 4).2 fun i hi => ?_
  simp [coeff_fieldPoly, BitVec.getLsbD_of_ge a i hi]

/-- Distinct elements have distinct polynomials. -/
theorem fieldPoly_injective : Function.Injective fieldPoly := by
  intro a b h
  ext i hi
  have hcoeff := congrArg (·.coeff i) h
  simp only [coeff_fieldPoly] at hcoeff
  cases ha : a.getLsbD i <;> cases hb : b.getLsbD i <;> simp_all

/-! ### Elements as residues modulo x^4 + x + 1 -/

theorem degree_reductionPoly : reductionPoly.degree = 4 := by
  rw [reductionPoly]; compute_degree!

theorem monic_reductionPoly : reductionPoly.Monic := by
  rw [reductionPoly]; monicity!

/-- An element's polynomial is reduced already. -/
theorem fieldPoly_modByMonic (a : Nibble) : (fieldPoly a).modByMonic reductionPoly = fieldPoly a := by
  rw [Polynomial.modByMonic_eq_self_iff monic_reductionPoly, degree_reductionPoly]
  exact degree_fieldPoly_lt a

/-- The element of GF(2)[x]/(x^4+x+1) that a nibble stands for (R69). -/
noncomputable def residue (a : Nibble) : AdjoinRoot reductionPoly := AdjoinRoot.mk reductionPoly (fieldPoly a)

@[simp] theorem residue_zero : residue 0#4 = 0 := by simp [residue]
@[simp] theorem residue_one : residue 1#4 = 1 := by simp [residue]
@[simp] theorem residue_xor (a b : Nibble) : residue (a ^^^ b) = residue a + residue b := by
  simp [residue, fieldPoly_xor]

/-- Polynomials of one residue leave one remainder. -/
theorem modByMonic_eq_of_mk_eq {p q : Polynomial (ZMod 2)}
    (h : AdjoinRoot.mk reductionPoly p = AdjoinRoot.mk reductionPoly q) :
    p.modByMonic reductionPoly = q.modByMonic reductionPoly :=
  Polynomial.modByMonic_eq_of_dvd_sub monic_reductionPoly (AdjoinRoot.mk_eq_mk.1 h)

/-- Distinct elements stand for distinct residues. -/
theorem residue_injective : Function.Injective residue := by
  intro a b h
  have hmod := modByMonic_eq_of_mk_eq h
  rw [fieldPoly_modByMonic, fieldPoly_modByMonic] at hmod
  exact fieldPoly_injective hmod

/-- The rule of the reduction: `x^4 = x + 1` (R68). -/
theorem root_pow_four : AdjoinRoot.root reductionPoly ^ 4 = residue 0b0011#4 := by
  have hdvd : reductionPoly ∣ X ^ 4 - (X + 1) := by
    rw [reductionPoly, CharTwo.sub_eq_add, add_assoc]
  simpa [residue] using AdjoinRoot.mk_eq_mk.2 hdvd

/-- Shifting and reducing the multiplicand multiplies it by `x` (R69). -/
theorem residue_shiftReduce (aa : BitVec 5) : residue ((shiftReduce aa).setWidth 4) =
    AdjoinRoot.root reductionPoly * residue (aa.setWidth 4) := by
  have hx := congrArg (AdjoinRoot.mk reductionPoly) (X_mul_fieldPoly (aa.setWidth 4))
  rw [map_mul, AdjoinRoot.mk_X] at hx
  rw [setWidth_shiftReduce, residue_xor, residue, residue, residue, hx]
  split <;> simp [root_pow_four, residue]

/-- An element's residue is `x` times that of the element shifted right, and 1 where its low bit is set. -/
theorem residue_eq_root_mul_add (b : Nibble) : residue b =
    AdjoinRoot.root reductionPoly * residue (b >>> 1) + if b.getLsbD 0 then 1 else 0 := by
  rw [residue, fieldPoly_eq_X_mul_add, map_add, map_mul, AdjoinRoot.mk_X, residue]
  split <;> simp

/-! ### The multiplier computes the product -/

/-- What the multiplier's registers stand for: the accumulator plus what is still to be multiplied. -/
noncomputable def regsValue (g : GfmRegs) : AdjoinRoot reductionPoly :=
  residue g.p + residue (g.aa.setWidth 4) * residue g.bb

/-- An iteration keeps what the registers stand for (R69). -/
theorem regsValue_gfmIterate (g : GfmRegs) : regsValue (gfmIterate g) = regsValue g := by
  rw [regsValue, regsValue, residue_eq_root_mul_add g.bb]
  simp only [gfmIterate, residue_shiftReduce]
  split
  · rw [residue_xor]; ring
  · ring

/-- Iterations keep what the registers stand for. -/
theorem regsValue_gfmIterations (n : Nat) (g : GfmRegs) : regsValue (gfmIterations n g) = regsValue g := by
  induction n generalizing g with
  | zero => rfl
  | succ n ih => rw [gfmIterations, ih, regsValue_gfmIterate]

/-- `gf_mul` is the product of residues (R69). -/
theorem residue_gfMul (a b : Nibble) : residue (gfMul a b) = residue a * residue b := by
  have hkept := regsValue_gfmIterations 4 ⟨0#4, a.setWidth 5, b⟩
  have hused : (gfmIterations 4 ⟨0#4, a.setWidth 5, b⟩).bb = 0#4 :=
    (bb_gfmIterations 4 _).trans (BitVec.ushiftRight_eq_zero (Nat.le_refl 4))
  simpa [regsValue, hused, ← gfMul_eq_accumulator] using hkept

/-! ### The laws of the field -/

theorem gfMul_comm (a b : Nibble) : gfMul a b = gfMul b a :=
  residue_injective (by simp only [residue_gfMul, mul_comm])

theorem gfMul_assoc (a b c : Nibble) : gfMul (gfMul a b) c = gfMul a (gfMul b c) :=
  residue_injective (by simp only [residue_gfMul, mul_assoc])

theorem gfMul_xor (a b c : Nibble) : gfMul a (b ^^^ c) = gfMul a b ^^^ gfMul a c :=
  residue_injective (by simp only [residue_gfMul, residue_xor, mul_add])

@[simp] theorem gfMul_zero (a : Nibble) : gfMul a 0#4 = 0#4 :=
  residue_injective (by simp [residue_gfMul])

@[simp] theorem gfMul_one (a : Nibble) : gfMul a 1#4 = a :=
  residue_injective (by simp [residue_gfMul])

@[simp] theorem zero_gfMul (a : Nibble) : gfMul 0#4 a = 0#4 := by rw [gfMul_comm, gfMul_zero]

@[simp] theorem one_gfMul (a : Nibble) : gfMul 1#4 a = a := by rw [gfMul_comm, gfMul_one]

/-- Every nonzero element has an inverse (R72): sixteen elements, each searched for its own. -/
theorem exists_gfMul_eq_one : ∀ a : Nibble, a ≠ 0#4 → ∃ c : Nibble, gfMul a c = 1#4 := by
  decide

/-- A nonzero factor can be cancelled. -/
theorem gfMul_left_cancel {a b c : Nibble} (ha : a ≠ 0#4) (h : gfMul a b = gfMul a c) : b = c := by
  obtain ⟨d, hd⟩ := exists_gfMul_eq_one a ha
  calc b = gfMul (gfMul d a) b := by rw [gfMul_comm d, hd, one_gfMul]
    _ = gfMul (gfMul d a) c := by rw [gfMul_assoc, h, gfMul_assoc]
    _ = c := by rw [gfMul_comm d, hd, one_gfMul]

/-- There are no zero divisors (R72). -/
theorem gfMul_eq_zero_iff (a b : Nibble) : gfMul a b = 0#4 ↔ a = 0#4 ∨ b = 0#4 := by
  constructor
  · intro h
    by_cases ha : a = 0#4
    · exact .inl ha
    · exact .inr (gfMul_left_cancel ha (h.trans (gfMul_zero a).symm))
  · rintro (rfl | rfl) <;> simp

/-- A nonzero element has exactly one inverse (R72). -/
theorem existsUnique_gfMul_eq_one {a : Nibble} (ha : a ≠ 0#4) : ∃! c : Nibble, gfMul a c = 1#4 := by
  obtain ⟨c, hc⟩ := exists_gfMul_eq_one a ha
  exact ⟨c, hc, fun d hd => gfMul_left_cancel ha (hd.trans hc.symm)⟩

/-! ### The statements -/

/-- Settles O39: the two polynomials have one residue, and the product's is reduced. -/
theorem gfMulIsThePolynomialProduct : Obligations.GfMulIsThePolynomialProduct := by
  intro a b
  rw [← fieldPoly_modByMonic]
  apply modByMonic_eq_of_mk_eq
  rw [map_mul]
  exact residue_gfMul a b

/-- Settles O38: the laws of the ring of residues, and inverses, from which zero divisors are ruled out. -/
theorem gfMulObeysTheFieldLaws : Obligations.GfMulObeysTheFieldLaws :=
  ⟨gfMul_comm, fun a => ⟨gfMul_zero a, gfMul_one a⟩, gfMul_assoc, gfMul_xor, gfMul_eq_zero_iff,
    fun _ => existsUnique_gfMul_eq_one⟩

/-- Settles O40: every iteration ends in a reduction, and the accumulator has no fifth bit to mask. -/
theorem reductionBoundsTheMultiplicand : Obligations.ReductionBoundsTheMultiplicand :=
  ⟨getLsbD_four_aa_gfmIterations, gfMul_eq_accumulator, xor_gfPoly_of_bit_four_set⟩

/-- Settles O1: GFMUL's arm of the decoder, its one write, and the laws its corner cases come from. -/
theorem gfmulMultipliesFieldElements : Obligations.GfmulMultipliesFieldElements := by
  refine ⟨?words, fun a b => answersWith_commandWrites (.gfmul a b),
    fun a b => ⟨?zero, one_gfMul b, gfMul_one a, ?high⟩, ?square, ?worked⟩
  case words => exact wordsOf_of_decodeFields (fun _ _ => rfl) (by simp)
  case zero => exact (gfMul_eq_zero_iff a b).2
  case high => simp [BitVec.extractLsb'_setWidth_of_le, extractLsb'_eq_zero_of_le]
  case square => decide
  case worked => exact givesRes_of_decode (i := .gfmul 4#4 3#4) (by decide) (by decide)

end Sys2Proof.GfMultiplierProofs

namespace Sys2Proof.SboxProofs

open Sys2Proof.Machine Sys2Proof.Statements Sys2Proof.MemoryProofs Sys2Proof.CommandProofs

/-! SUPPORT for the statements of 41_sbox_engine.md. Substitution acts on each nibble in place, so the inverse table
undoes it; and the nibbles of a block are the nibbles of its two bytes, so substitution of a block is that of its
bytes. -/

/-! ### Substitution, nibble by nibble -/

/-- Each nibble of a substituted block is the entry of the nibble in its place (R79, R81). -/
theorem nib_subNib (sbox : Sbox) (x : Block) (i : Fin 4) : nib (subNib sbox x) i = sbox (nib x i) :=
  match i with
  | 0 => nib_joinNibbles_zero ..
  | 1 => nib_joinNibbles_one ..
  | 2 => nib_joinNibbles_two ..
  | 3 => nib_joinNibbles_three ..

/-- The identity table leaves a block as it is. -/
theorem subNib_identitySbox (x : Block) : subNib identitySbox x = x := joinNibbles_nib x

/-- The inverse table undoes a substitution of a block. -/
theorem subNib_symm_subNib (sbox : Sbox) : Function.LeftInverse (subNib sbox.symm) (subNib sbox) := by
  intro x
  simp [subNib]

/-- The inverse table undoes a substitution of a byte. -/
theorem subByte_symm_subByte (sbox : Sbox) : Function.LeftInverse (subByte sbox.symm) (subByte sbox) := by
  intro w
  simp [subByte]

/-- Substitution is a bijection on blocks, since the table is one on nibbles (R77, R81). -/
theorem subNib_bijective (sbox : Sbox) : Function.Bijective (subNib sbox) :=
  Function.bijective_iff_has_inverse.2
    ⟨subNib sbox.symm, subNib_symm_subNib sbox, subNib_symm_subNib sbox.symm⟩

/-- Substitution is a bijection on bytes, since the table is one on nibbles (R77, R84). -/
theorem subByte_bijective (sbox : Sbox) : Function.Bijective (subByte sbox) :=
  Function.bijective_iff_has_inverse.2
    ⟨subByte sbox.symm, subByte_symm_subByte sbox, subByte_symm_subByte sbox.symm⟩

/-! ### A block as two bytes -/

@[simp] theorem hiNibble_hiByte (x : Block) : hiNibble (hiByte x) = nib x 3 :=
  extractLsb'_extractLsb' x (by decide)

@[simp] theorem loNibble_hiByte (x : Block) : loNibble (hiByte x) = nib x 2 :=
  extractLsb'_extractLsb' x (by decide)

@[simp] theorem hiNibble_loByte (x : Block) : hiNibble (loByte x) = nib x 1 :=
  extractLsb'_extractLsb' x (by decide)

@[simp] theorem loNibble_loByte (x : Block) : loNibble (loByte x) = nib x 0 :=
  extractLsb'_extractLsb' x (by decide)

/-- Four nibbles joined are the two bytes they make, joined (R14). -/
theorem joinBytes_joinByte (n3 n2 n1 n0 : Nibble) :
    joinBytes (joinByte n3 n2) (joinByte n1 n0) = joinNibbles n3 n2 n1 n0 :=
  (BitVec.append_assoc (x₁ := n3 ++ n2) (x₂ := n1) (x₃ := n0)).symm

/-- Substitution of a block is that of its high byte followed by that of its low byte (R84). -/
theorem subNib_eq_joinBytes (sbox : Sbox) (x : Block) :
    subNib sbox x = joinBytes (subByte sbox (hiByte x)) (subByte sbox (loByte x)) := by
  simp [subNib, subByte, joinBytes_joinByte]

/-! ### The statements -/

/-- Settles O41: substitution acts in place, and the inverse table undoes it. -/
theorem subNibIsABijectionNibbleByNibble : Obligations.SubNibIsABijectionNibbleByNibble :=
  fun sbox => ⟨nib_subNib sbox, subNib_bijective sbox⟩

/-- Settles O42: the nibbles of a block are those of its two bytes, and the inverse table undoes `sub_byte`. -/
theorem subNibIsSubByteOnBothBytes : Obligations.SubNibIsSubByteOnBothBytes :=
  fun sbox => ⟨subNib_eq_joinBytes sbox, subByte_bijective sbox⟩

/-- Settles O2: SUBNIB's arm of the decoder, its one write, and substitution in place, from which equal nibbles
stay equal. -/
theorem subnibSubstitutesEveryNibble : Obligations.SubnibSubstitutesEveryNibble := by
  refine ⟨?words, fun x => answersWith_commandWrites (.subnib x), fun sbox x i j h => ?equalNibbles,
    fun sbox => ⟨rfl, rfl⟩, ?fixedPoint, subNib_identitySbox, ?worked⟩
  case words => exact wordsOf_of_decodeFields (fun _ _ => rfl) (by simp)
  case equalNibbles => rw [nib_subNib, nib_subNib, h]
  case fixedPoint => exact ⟨identitySbox, 0#4, rfl, subNib_identitySbox _⟩
  case worked => decide

/-- Settles O5: SUBBYTE's arm of the decoder, its one write, and the zeros that extend a byte to a block. -/
theorem subbyteSubstitutesBothNibbles : Obligations.SubbyteSubstitutesBothNibbles := by
  refine ⟨?words, fun x => answersWith_commandWrites (.subbyte x), fun sbox x => ⟨rfl, ?high⟩,
    fun sbox => ⟨rfl, rfl, rfl⟩, ?worked⟩
  case words => exact wordsOf_of_decodeFields (fun _ _ => rfl) (by simp)
  case high => simp [BitVec.extractLsb'_setWidth_of_le, extractLsb'_eq_zero_of_le]
  case worked => decide

end Sys2Proof.SboxProofs

namespace Sys2Proof.SpnProofs

open Sys2Proof.Machine Sys2Proof.Statements Sys2Proof.CommandProofs Sys2Proof.GfMultiplierProofs

/-! SUPPORT for the statements of 42_permutation_mixing.md. A stage is known by the nibbles of its result. The
shift swaps two nibbles; the mixing multiplies each column by [[1,4],[4,1]], and its laws are those of one column,
which come from the laws of the field. -/

/-! ### The shift -/

@[simp] theorem nib_shiftRows_zero (x : Block) : nib (shiftRows x) 0 = nib x 0 := nib_joinNibbles_zero ..
@[simp] theorem nib_shiftRows_one (x : Block) : nib (shiftRows x) 1 = nib x 3 := nib_joinNibbles_one ..
@[simp] theorem nib_shiftRows_two (x : Block) : nib (shiftRows x) 2 = nib x 2 := nib_joinNibbles_two ..
@[simp] theorem nib_shiftRows_three (x : Block) : nib (shiftRows x) 3 = nib x 1 := nib_joinNibbles_three ..

/-- A block whose moving nibbles are equal is left as it is (R90). -/
theorem shiftRows_eq_self {x : Block} (h : nib x 1 = nib x 3) : shiftRows x = x :=
  eq_of_nib (by simp [h]) (by simp) (by simp [h]) (by simp)

/-- The shift swaps the same two nibbles back (R89). -/
@[simp] theorem shiftRows_shiftRows (x : Block) : shiftRows (shiftRows x) = x :=
  eq_of_nib (by simp) (by simp) (by simp) (by simp)

/-- The shift moves nibbles and does not look into them, so it commutes with a map of each alike (R89). -/
theorem shiftRows_mapNibbles (f : Nibble → Nibble) (x : Block) :
    shiftRows (mapNibbles f x) = mapNibbles f (shiftRows x) := by
  simp [shiftRows, mapNibbles]

/-- Substitution of a block maps each nibble alike (R79). -/
theorem subNib_eq_mapNibbles (sbox : Sbox) : subNib sbox = mapNibbles sbox := rfl

/-! ### One column -/

theorem xor_gfMul (a b c : Nibble) : gfMul (a ^^^ b) c = gfMul a c ^^^ gfMul b c := by
  simp only [gfMul_comm _ c, gfMul_xor]

theorem gfMul_four_four : gfMul 4#4 4#4 = 3#4 := by decide

/-- The diagonal entry of the matrix squared (R94). -/
theorem one_xor_gfMul_four_four : 1#4 ^^^ gfMul 4#4 4#4 = 2#4 := by rw [gfMul_four_four]; rfl

/-- The first row of the matrix is (1, 4) (R91). -/
theorem mixTop_eq (top bottom : Nibble) : mixTop top bottom = top ^^^ gfMul 4#4 bottom :=
  congrArg (· ^^^ _) (one_gfMul top)

/-- The second row of the matrix is (4, 1) (R91). -/
theorem mixBottom_eq (top bottom : Nibble) : mixBottom top bottom = gfMul 4#4 top ^^^ bottom :=
  congrArg (_ ^^^ ·) (one_gfMul bottom)

/-- The second row is the first with the column turned over. -/
theorem mixBottom_eq_mixTop (top bottom : Nibble) : mixBottom top bottom = mixTop bottom top := by
  rw [mixBottom_eq, mixTop_eq, BitVec.xor_comm]

/-- Each row is linear over `^` (R93). -/
theorem mixTop_xor (t b t' b' : Nibble) : mixTop (t ^^^ t') (b ^^^ b') = mixTop t b ^^^ mixTop t' b' := by
  simp only [mixTop_eq, gfMul_xor]
  ac_rfl

/-- Mixed twice, a column's upper nibble is doubled: its lower nibble comes in twice and cancels (R94). -/
theorem mixTop_mixTop (t b : Nibble) : mixTop (mixTop t b) (mixTop b t) = gfMul 2#4 t := by
  calc mixTop (mixTop t b) (mixTop b t)
      = (gfMul 1#4 t ^^^ gfMul (gfMul 4#4 4#4) t) ^^^ (gfMul 4#4 b ^^^ gfMul 4#4 b) := by
        simp only [mixTop_eq, gfMul_xor, gfMul_assoc, one_gfMul]
        ac_rfl
    _ = gfMul (1#4 ^^^ gfMul 4#4 4#4) t := by rw [BitVec.xor_self, BitVec.xor_zero, xor_gfMul]
    _ = gfMul 2#4 t := by rw [one_xor_gfMul_four_four]

/-- Doubling moves every nibble but 0 (R94). -/
theorem gfMul_two_eq_self_iff (n : Nibble) : gfMul 2#4 n = n ↔ n = 0#4 := by
  calc gfMul 2#4 n = n ↔ gfMul 2#4 n ^^^ gfMul 1#4 n = 0#4 := by rw [one_gfMul, BitVec.xor_eq_zero_iff]
    _ ↔ gfMul 3#4 n = 0#4 := by rw [← xor_gfMul]; rfl
    _ ↔ n = 0#4 := by simp [gfMul_eq_zero_iff]

/-! ### Both columns -/

@[simp] theorem nib_mixCol_zero (x : Block) : nib (mixCol x) 0 = mixTop (nib x 0) (nib x 1) :=
  nib_joinNibbles_zero ..
@[simp] theorem nib_mixCol_one (x : Block) : nib (mixCol x) 1 = mixTop (nib x 1) (nib x 0) :=
  (nib_joinNibbles_one ..).trans (mixBottom_eq_mixTop ..)
@[simp] theorem nib_mixCol_two (x : Block) : nib (mixCol x) 2 = mixTop (nib x 2) (nib x 3) :=
  nib_joinNibbles_two ..
@[simp] theorem nib_mixCol_three (x : Block) : nib (mixCol x) 3 = mixTop (nib x 3) (nib x 2) :=
  (nib_joinNibbles_three ..).trans (mixBottom_eq_mixTop ..)

/-- The mixing of a block given by its nibbles (R91). -/
theorem mixCol_joinNibbles (n3 n2 n1 n0 : Nibble) : mixCol (joinNibbles n3 n2 n1 n0) =
    joinNibbles (mixTop n3 n2) (mixTop n2 n3) (mixTop n1 n0) (mixTop n0 n1) := by
  simp [mixCol, mixBottom_eq_mixTop]

/-- The mixing is linear over `^`, as each row of each column is (R93). -/
theorem mixCol_xor (x y : Block) : mixCol (x ^^^ y) = mixCol x ^^^ mixCol y :=
  eq_of_nib (by simp [mixTop_xor]) (by simp [mixTop_xor]) (by simp [mixTop_xor]) (by simp [mixTop_xor])

/-- A linear map sends 0 to 0, since 0 is the `^` of any block with itself (R93). -/
@[simp] theorem mixCol_zero : mixCol 0#16 = 0#16 := by
  simpa using mixCol_xor 0#16 0#16

/-- Mixing twice doubles every nibble (R94). -/
theorem nib_mixCol_mixCol (x : Block) (i : Fin 4) : nib (mixCol (mixCol x)) i = gfMul 2#4 (nib x i) :=
  match i with
  | 0 | 1 | 2 | 3 => by simp [mixTop_mixTop]

/-- A block is 0 exactly when its nibbles are. -/
theorem eq_zero_iff_nib (x : Block) : x = 0#16 ↔ ∀ i : Fin 4, nib x i = 0#4 := by
  constructor
  · rintro rfl i
    exact BitVec.extractLsb'_zero
  · intro h
    exact eq_of_nib (h 3) (h 2) (h 1) (h 0)

/-- Mixing twice moves every block but 0, since doubling moves every nibble but 0 (R94). -/
theorem mixCol_mixCol_eq_self_iff (x : Block) : mixCol (mixCol x) = x ↔ x = 0#16 := by
  rw [eq_zero_iff_nib]
  constructor
  · intro h i
    rw [← gfMul_two_eq_self_iff, ← nib_mixCol_mixCol, h]
  · intro h
    have hfixed (i : Fin 4) : nib (mixCol (mixCol x)) i = nib x i := by
      rw [nib_mixCol_mixCol, gfMul_two_eq_self_iff, h]
    exact eq_of_nib (hfixed 3) (hfixed 2) (hfixed 1) (hfixed 0)

/-! ### The statements -/

/-- Settles O43: the shift moves whole nibbles, and substitution maps each nibble alike. -/
theorem shiftRowsIsAnInvolutionOfNibbles : Obligations.ShiftRowsIsAnInvolutionOfNibbles :=
  ⟨shiftRows_shiftRows, shiftRows_mapNibbles, fun sbox => by
    rw [subNib_eq_mapNibbles]
    exact shiftRows_mapNibbles sbox⟩

/-- Settles O44: each row is linear, and each nibble of the result is a row applied to its own column. -/
theorem mixColIsLinearColumnByColumn : Obligations.MixColIsLinearColumnByColumn := by
  refine ⟨mixCol_xor, mixCol_zero, fun x y h0 h1 => ?column0, fun x y h2 h3 => ?column1⟩
  case column0 => simp [h0, h1]
  case column1 => simp [h2, h3]

/-- Settles O45: a column mixed twice is doubled, and doubling fixes only 0. -/
theorem mixingTwiceDoublesEveryNibble : Obligations.MixingTwiceDoublesEveryNibble :=
  ⟨nib_mixCol_mixCol, mixCol_mixCol_eq_self_iff, one_xor_gfMul_four_four, BitVec.xor_self,
    gfMul_four_four⟩

/-- Settles O3: SHIFTROWS's arm of the decoder, its one write, and the nibbles of a shifted block. -/
theorem shiftrowsSwapsTwoNibbles : Obligations.ShiftrowsSwapsTwoNibbles := by
  refine ⟨?words, fun x => answersWith_commandWrites (.shiftrows x), fun x =>
    ⟨nib_shiftRows_three x, nib_shiftRows_two x, nib_shiftRows_one x, nib_shiftRows_zero x, shiftRows_eq_self⟩,
    ?examples⟩
  case words => exact wordsOf_of_decodeFields (fun _ _ => rfl) (by simp)
  case examples =>
    exact ⟨by decide, by decide, givesRes_of_decode (i := .shiftrows 0x1234#16) (by decide) (by decide)⟩

/-- Settles O4: MIXCOL's arm of the decoder, its one write, and the matrix's rows on each column. -/
theorem mixcolMixesBothColumns : Obligations.MixcolMixesBothColumns := by
  refine ⟨?words, fun x => answersWith_commandWrites (.mixcol x), fun x => ?sums, mixCol_zero, by decide, by decide,
    by decide, by decide, by decide, by decide, fun n => ⟨gfMul 4#4 n, gfMul 4#4 n, ?spread⟩, ?worked⟩
  case words => exact wordsOf_of_decodeFields (fun _ _ => rfl) (by simp)
  case sums => simp [mixTop_eq, BitVec.xor_comm]
  case spread => simp [mixCol_joinNibbles, mixTop_eq]
  case worked => exact givesRes_of_decode (i := .mixcol 0x1234#16) (by decide) (by decide)

/-- Settles O6: ADDKEY's arm of the decoder, which asks nothing of a word, its one write, and the laws of XOR. -/
theorem addkeyXorsTheRoundKey : Obligations.AddkeyXorsTheRoundKey := by
  refine ⟨?words, fun x k => answersWith_commandWrites (.addkey x k),
    fun x k => ⟨BitVec.xor_zero, BitVec.xor_self, BitVec.xor_allOnes, ?undone⟩, ?worked⟩
  case words => exact wordsOf_of_decodeFields (check := fun _ _ => true) (fun _ _ => rfl) (by simp)
  case undone => rw [addKey, addKey, BitVec.xor_assoc, BitVec.xor_self, BitVec.xor_zero]
  case worked => exact givesRes_of_decode (i := .addkey 0x1234#16 0xABCD#16) (by decide) (by decide)

end Sys2Proof.SpnProofs

namespace Sys2Proof.KeyScheduleProofs

open Sys2Proof.Machine Sys2Proof.Statements Sys2Proof.StateProofs Sys2Proof.CommandProofs

/-! SUPPORT for the statements of 43_key_schedule.md. The words of the recurrence, when two of them are equal, and
the read of a register that the last command left NONE. -/

/-! ### The recurrence -/

/-- Six bytes that satisfy the recurrence are, joined in pairs, the round keys of the key the first pair makes (R99). -/
theorem keyExp_eq_of_recurrence {sbox : Sbox} {w0 w1 w2 w3 w4 w5 : Byte}
    (h2 : w2 = w0 ^^^ rcon1 ^^^ subByte sbox w1) (h3 : w3 = w2 ^^^ w1)
    (h4 : w4 = w2 ^^^ rcon2 ^^^ subByte sbox w3) (h5 : w5 = w4 ^^^ w3) :
    keyExp sbox (joinBytes w0 w1) = ⟨joinBytes w0 w1, joinBytes w2 w3, joinBytes w4 w5⟩ := by
  subst h5 h4 h3 h2
  simp [keyExp, keyWords]

/-- The word w3 is w2 `^` the low byte, so the two are equal exactly when that byte is 0 (R104). -/
theorem keyWords_w3_eq_w2_iff (sbox : Sbox) (key : Block) :
    (keyWords sbox key).w3 = (keyWords sbox key).w2 ↔ loByte key = 0#8 := by
  have hw3 : (keyWords sbox key).w3 = (keyWords sbox key).w2 ^^^ loByte key := rfl
  rw [hw3, ← BitVec.xor_right_inj (x := loByte key) (keyWords sbox key).w2, BitVec.xor_zero]

/-- The zero key's K1 is one byte twice over, since its low byte is 0 (R104). -/
theorem keyExp_zero_k1 (sbox : Sbox) :
    (keyExp sbox 0#16).k1 = joinBytes (0x80#8 ^^^ subByte sbox 0#8) (0x80#8 ^^^ subByte sbox 0#8) := by
  have hw2 : (keyWords sbox 0#16).w2 = 0x80#8 ^^^ subByte sbox 0#8 := rfl
  have hw3 := (keyWords_w3_eq_w2_iff sbox 0#16).2 rfl
  rw [keyExp, hw3, hw2]

/-! ### A register left NONE -/

/-- A read of a register outside the last command's write set records ReadNoValue (R26, R120). -/
theorem fault_readData_of_not_mem_writeSet {i : Instr} {s t : State} {r : RespReg} (hs : s.fault = none)
    (h : exec i s = .next t) (hr : r ∉ writeSet i.op) : (readData r t).fault = some (.readNoValue r) := by
  rw [exec_eq_respond] at h
  injection h with h
  subst h
  have hnone : (s.respond (commandWrites i)).reg r = none :=
    not_ne_iff.1 (mt (reg_command_ne_none_iff i s r).1 hr)
  obtain ⟨-, -, -, hread⟩ := readData_spec r (s.respond (commandWrites i))
  rw [(hread hnone).1, State.respond_fault, hs, Option.none_or]

/-! ### The statements -/

/-- Settles O46: the recurrence gives w3 as w2 `^` w1, and the zero key's w1 is 0. -/
theorem zeroKeyScenarioAndFirstRoundKey : Obligations.ZeroKeyScenarioAndFirstRoundKey :=
  ⟨fun sbox => ⟨keyExp_k0 sbox 0#16, keyExp_zero_k1 sbox⟩, keyWords_w3_eq_w2_iff, keyExp_k0⟩

/-- Settles O7: KEYEXP's arm of the decoder, its three writes, the recurrence, and RES outside its write set. -/
theorem keyexpExpandsTheKey : Obligations.KeyexpExpandsTheKey := by
  refine ⟨?words, fun key => answersWith_commandWrites (.keyexp key), ?recurrence,
    fun sbox => ⟨keyExp_k0 sbox 0#16, keyExp_zero_k1 sbox⟩, ?readRes, ?worked⟩
  case words => exact wordsOf_of_decodeFields (fun _ _ => rfl) (by simp)
  case recurrence =>
    rintro sbox _ w0 w1 w2 w3 w4 w5 rfl h2 h3 h4 h5
    exact keyExp_eq_of_recurrence h2 h3 h4 h5
  case readRes =>
    have hres : RespReg.res ∉ writeSet .keyexp := by decide
    exact fun key s t hs h => fault_readData_of_not_mem_writeSet hs h hres
  case worked => decide

end Sys2Proof.KeyScheduleProofs

namespace Sys2Proof.PipelineProofs

open Sys2Proof.Machine Sys2Proof.Statements Sys2Proof.StateProofs Sys2Proof.MemoryProofs Sys2Proof.CommandProofs
open Sys2Proof.GfMultiplierProofs Sys2Proof.SboxProofs Sys2Proof.SpnProofs

/-! SUPPORT for the statements of 44_encryption_pipeline.md. One encryption is its eight stages run in order, each a
bijection on blocks; and each command of the host's sequence is one of these stages. -/

/-! ### One encryption, stage after stage -/

/-- An encryption read off its round keys and the equations between its states (R107). -/
theorem encryptBlock_eq_of_stages {sbox : Sbox} {pt key k1 k2 st1 st2 st3 st4 st5 st6 st7 : Block}
    (hkeys : keyExp sbox key = ⟨key, k1, k2⟩) (h1 : st1 = pt ^^^ key) (h2 : st2 = subNib sbox st1)
    (h3 : st3 = shiftRows st2) (h4 : st4 = mixCol st3) (h5 : st5 = st4 ^^^ k1) (h6 : st6 = subNib sbox st5)
    (h7 : st7 = shiftRows st6) :
    encryptBlock sbox pt key = ⟨st7 ^^^ k2, ⟨key, k1, k2⟩, st1, st2, st3, st4, st5, st6, st7⟩ := by
  subst h7 h6 h5 h4 h3 h2 h1
  simp only [encryptBlock, hkeys, addKey]

/-- The first state is the plaintext `^` the key, since the first round key is the key (R101, R107). -/
theorem encryptBlock_st1 (sbox : Sbox) (pt key : Block) : (encryptBlock sbox pt key).st1 = pt ^^^ key :=
  congrArg (pt ^^^ ·) (keyExp_k0 sbox key)

/-- The stages run from the plaintext produce the seven states and the ciphertext (R106, R107). -/
theorem runStages_pipelineStages {sbox : Sbox} {pt key : Block} {e : Encryption}
    (he : encryptBlock sbox pt key = e) :
    runStages sbox (keyExp sbox key) pipelineStages pt =
      [e.st1, e.st2, e.st3, e.st4, e.st5, e.st6, e.st7, e.ct] := by
  subst he
  rfl

/-- The ciphertext is the plaintext taken through every stage (R107). -/
theorem encryptBlock_ct_eq_foldl (sbox : Sbox) (pt key : Block) :
    (encryptBlock sbox pt key).ct = pipelineStages.foldl (runStage sbox (keyExp sbox key)) pt := rfl

/-! ### Each stage is a bijection -/

/-- XOR with a key undoes itself (R112). -/
theorem addKey_bijective (key : Block) : Function.Bijective (addKey · key) :=
  (xor_left_involutive key).bijective

/-- The shift undoes itself (R89, R112). -/
theorem shiftRows_bijective : Function.Bijective shiftRows :=
  Function.Involutive.bijective shiftRows_shiftRows

/-- Two blocks mixed alike are alike when mixed again, so their nibbles doubled are equal, and 2 can be cancelled
(R94, R112). -/
theorem mixCol_injective : Function.Injective mixCol := by
  intro x y h
  have hnib (i : Fin 4) : nib x i = nib y i := by
    have hdoubled : gfMul 2#4 (nib x i) = gfMul 2#4 (nib y i) := by
      rw [← nib_mixCol_mixCol, ← nib_mixCol_mixCol, h]
    exact gfMul_left_cancel (by decide) hdoubled
  exact eq_of_nib (hnib 3) (hnib 2) (hnib 1) (hnib 0)

/-- There are finitely many blocks, so an injective mixing is a bijective one (R112). -/
theorem mixCol_bijective : Function.Bijective mixCol := mixCol_injective.bijective_of_finite

/-- Each stage is a bijection, whatever the table and the round keys (R112). -/
theorem runStage_bijective (sbox : Sbox) (ks : RoundKeys) (g : Stage) :
    Function.Bijective (runStage sbox ks · g) := by
  cases g with
  | keyMix n => exact addKey_bijective (ks.key n)
  | substitute => exact subNib_bijective sbox
  | shift => exact shiftRows_bijective
  | mix => exact mixCol_bijective

/-- Stages run one after another are a bijection, since each is one (R112). -/
theorem foldl_runStage_bijective (sbox : Sbox) (ks : RoundKeys) (stages : List Stage) :
    Function.Bijective (stages.foldl (runStage sbox ks)) := by
  induction stages with
  | nil => exact Function.bijective_id
  | cons g rest ih => exact ih.comp (runStage_bijective sbox ks g)

/-! ### The host's sequence -/

/-- Issuing a command's word with no fault standing gives a state: that of the command's response. -/
theorem issued_encode (i : Instr) {s : State} (hs : s.fault = none) :
    issued (encode i) s = some (s.respond (commandWrites i)) := by
  rw [issued, issueWord_encode i hs]

/-- KEYEXP in a host's sequence: the host reads the round keys and goes on with them, with no fault standing. -/
theorem issued_keyexp_bind_roundKeys {α : Type} (key : Block) {s : State} (hs : s.fault = none)
    {rest : State → Block → Block → Block → Option α} {answer : Option α}
    (hrest : ∀ t : State, t.fault = none → rest t (keyExp Config.sbox key).k0 (keyExp Config.sbox key).k1
      (keyExp Config.sbox key).k2 = answer) :
    (do let t ← issued (encode (.keyexp key)) s
        let k0 ← t.rk0
        let k1 ← t.rk1
        let k2 ← t.rk2
        rest t k0 k1 k2) = answer := by
  rw [issued_encode _ hs]
  exact hrest _ ((State.respond_fault ..).trans hs)

/-- A command that writes RES in a host's sequence: the host reads the result and goes on with it, with no fault
standing. -/
theorem issued_bind_res {α : Type} {i : Instr} {v : Block} {s : State} (hs : s.fault = none)
    (hi : commandWrites i = [(.res, v)]) {rest : State → Block → Option α} {answer : Option α}
    (hrest : ∀ t : State, t.fault = none → rest t v = answer) :
    (do let t ← issued (encode i) s
        let x ← t.res
        rest t x) = answer := by
  rw [issued_encode i hs, hi]
  exact hrest _ ((State.respond_fault ..).trans hs)

/-- The host's sequence runs to its end, and its eight results are those of the pipeline's stages (R114). -/
theorem hostSequence_eq_runStages (pt key : Block) {s : State} (hs : s.fault = none) :
    hostSequence pt key s = some (runStages Config.sbox (keyExp Config.sbox key) pipelineStages pt) :=
  issued_keyexp_bind_roundKeys key hs fun _ h0 =>
  issued_bind_res h0 rfl fun _ h1 =>
  issued_bind_res h1 rfl fun _ h2 =>
  issued_bind_res h2 rfl fun _ h3 =>
  issued_bind_res h3 rfl fun _ h4 =>
  issued_bind_res h4 rfl fun _ h5 =>
  issued_bind_res h5 rfl fun _ h6 =>
  issued_bind_res h6 rfl fun _ h7 =>
  issued_bind_res h7 rfl fun _ _ => rfl

/-! ### The statements -/

/-- Settles O47: the stages and the encryption are the same functions in the same order. -/
theorem encryptIsTheEightStagePipeline : Obligations.EncryptIsTheEightStagePipeline :=
  ⟨rfl, rfl, fun _ _ _ => ⟨_, rfl, runStages_pipelineStages rfl⟩⟩

/-- Settles O48: the ciphertext is the plaintext taken through eight stages, each a bijection. -/
theorem encryptionIsABijectionForEachKey : Obligations.EncryptionIsABijectionForEachKey := by
  refine fun sbox key => ⟨?_, subNib_bijective sbox, shiftRows_bijective, mixCol_bijective, addKey_bijective key⟩
  simp only [encryptBlock_ct_eq_foldl]
  exact foldl_runStage_bijective sbox (keyExp sbox key) pipelineStages

/-- Settles O8: ENCRYPT's arm of the decoder, which asks nothing of a word, its eleven writes, and K0 as the key. -/
theorem encryptRunsTheWholePipeline : Obligations.EncryptRunsTheWholePipeline := by
  refine ⟨?words, ?answers, keyExp_k0, fun _ _ _ => rfl, ?equal, fun sbox => encryptBlock_st1 sbox _ _, ?worked⟩
  case words => exact wordsOf_of_decodeFields (check := fun _ _ => true) (fun _ _ => rfl) (by simp)
  case answers =>
    intro pt key k1 k2 st1 st2 st3 st4 st5 st6 st7 hkeys h1 h2 h3 h4 h5 h6 h7
    have hwrites := answersWith_commandWrites (.encrypt pt key)
    rwa [commandWrites, encryptBlock_eq_of_stages hkeys h1 h2 h3 h4 h5 h6 h7] at hwrites
  case equal => exact fun sbox key => (encryptBlock_st1 sbox key key).trans BitVec.xor_self
  case worked => decide

/-- Settles O49: each command of the sequence runs the stage of its place, and ENCRYPT's registers show them all. -/
theorem hostSequenceComputesTheSameEncryption : Obligations.HostSequenceComputesTheSameEncryption := by
  intro s pt key hs
  refine ⟨_, _, issueWord_encode (.encrypt pt key) hs, hostSequence_eq_runStages pt key hs, ?_⟩
  rw [runStages_pipelineStages rfl]
  rfl

end Sys2Proof.PipelineProofs

namespace Sys2Proof.ExceptionProofs

open Sys2Proof.Machine Sys2Proof.Statements Sys2Proof.StateProofs Sys2Proof.EncodingProofs Sys2Proof.CommandProofs

/-! SUPPORT for the statements of 60_exceptions.md: which words are illegal, what becomes of a fault that stands,
and the step of one of several cores. -/

/-! ### Illegal words -/

/-- The reserved-zero bits of an operation are the bits of each field above its operand, and no bit of OPC (R57). -/
theorem reservedMask_eq_packWord (op : Op) :
    reservedMask op = packWord 0x00#8 (bitsFrom (widthA op)) (bitsFrom (widthB op)) := by
  cases op <;> decide

/-- A word has its reserved-zero bits 0 exactly when each of its fields is 0 above the operand (R57). -/
theorem and_reservedMask_eq_zero_iff (w : CommandWord) (op : Op) : w &&& reservedMask op = 0#40 ↔
    fieldA w &&& bitsFrom (widthA op) = 0#16 ∧ fieldB w &&& bitsFrom (widthB op) = 0#16 := by
  have hand := packWord_and_packWord (opcField w) 0x00#8 (fieldA w) (fieldB w) (bitsFrom (widthA op))
    (bitsFrom (widthB op))
  have hzero : 0#40 = packWord 0x00#8 0#16 0#16 := by decide
  rw [packWord_fields, BitVec.and_zero] at hand
  rw [reservedMask_eq_packWord, hand, hzero, packWord_inj]
  simp

/-- A word decodes exactly when its OPC is an operation's and no reserved-zero bit of that operation is 1 (R58). -/
theorem exists_decode_ok_iff (w : CommandWord) :
    (∃ i, decode w = .ok i) ↔ ∃ op : Op, opcField w = op.opcode ∧ w &&& reservedMask op = 0#40 := by
  simp only [and_reservedMask_eq_zero_iff, ← exists_decode_op_iff]
  exact ⟨fun ⟨i, hd⟩ => ⟨i.op, i, hd, rfl⟩, fun ⟨_, i, hd, _⟩ => ⟨i, hd⟩⟩

/-- The decoder rejects a word exactly when it reads no command from it. -/
theorem exists_decode_error_iff (w : CommandWord) : (∃ e, decode w = .error e) ↔ ¬ ∃ i, decode w = .ok i := by
  cases decode w <;> simp

/-- The opcodes of the operations are 0x01 to 0x08 (R56, R59). -/
theorem exists_opcode_eq_iff (opc : BitVec 8) :
    (∃ op : Op, opc = op.opcode) ↔ ¬ (opc = 0x00#8 ∨ 9 ≤ opc.toNat) := by
  constructor
  · rintro ⟨op, rfl⟩
    cases op <;> decide
  · intro h
    have hmem : opc ∈ opcodeTable.map (·.op.opcode) := by
      simp only [opcodeTable, Op.opcode, List.map_cons, List.map_nil, List.mem_cons, List.not_mem_nil]
      bv_omega
    obtain ⟨row, -, hrow⟩ := List.mem_map.1 hmem
    exact ⟨row.op, hrow.symm⟩

/-- No two operations share an opcode (R56). -/
theorem opcode_injective : Function.Injective Op.opcode := by
  intro op op'
  cases op <;> cases op' <;> decide

/-! ### A fault that stands -/

/-- While a fault stands an issue has no step, whatever the word (R123). -/
theorem issueWord_of_fault {s : State} {f : FaultRecord} (hs : s.fault = some f) (w : CommandWord) :
    issueWord w s = .fault (.issueWhileFaulted f) := by
  rw [issueWord, hs]

/-- A step leaves a standing fault as it is, unless it took a reset (R116, R123, R137). -/
theorem step_fault_of_standing {s t : State} {f : FaultRecord} (hs : s.fault = some f) (h : step s = .next t) :
    t.fault = some f ∨ t.fault = none ∧ ∃ a rest, s.pending = a :: rest ∧ a.isReset := by
  rcases step_effects h with rfl |
    ⟨a, rest, hp, ⟨w, i, -, hf, -, -⟩ | ⟨w, e, -, hf, -, -⟩ | ⟨-, -, hread⟩ | ⟨hreset, rfl⟩⟩
  · exact .inl hs
  · cases hs.symm.trans hf
  · cases hs.symm.trans hf
  · rcases hread with hsame | ⟨r, hf, -, -⟩
    · exact .inl (hsame.trans hs)
    · cases hs.symm.trans hf
  · exact .inr ⟨rfl, a, rest, hp, hreset⟩

/-- No read applies reset. -/
theorem not_isReset_of_isRead {a : HostAction} (h : a.isRead) : ¬ a.isReset := by
  cases a <;> simp_all [HostAction.isRead, HostAction.isReset]

/-! ### Instances -/

/-- A step of one of several cores: that core took its own step, and the vector was set at its place (R46, R133). -/
theorem stepInstance_cases {n : Nat} {k : Fin n} {cores cores' : Vector State n}
    (h : stepInstance k cores = .next cores') : ∃ t, step cores[k] = .next t ∧ cores' = cores.set k t := by
  unfold stepInstance at h
  split at h
  case h_1 t ht => injection h with h; exact ⟨t, ht, h.symm⟩
  case h_2 | h_3 => cases h

/-! ### The statements -/

/-- Settles O17: the step issues the word, which raises IllegalCommand, on the state with that action taken. -/
theorem illegalWordClearsResponsesAndRecordsTheWord : Obligations.IllegalWordClearsResponsesAndRecordsTheWord := by
  rintro s w rest hs hp ⟨e, he⟩
  rw [step_of_pending hp]
  exact takesIllegalCommand_of_decode he (s.setPending rest) hs

/-- Settles O18: the words that decode have an assigned opcode and zeros at its reserved bits, and the two causes
are the two ways to fall short of that. -/
theorem illegalCommandHasExactlyTwoCauses : Obligations.IllegalCommandHasExactlyTwoCauses := by
  refine ⟨fun w => ?causes, fun w s hs => ?issued⟩
  case causes =>
    rw [exists_decode_error_iff, exists_decode_ok_iff]
    by_cases hopc : ∃ op : Op, opcField w = op.opcode
    · have hassigned := (exists_opcode_eq_iff _).1 hopc
      obtain ⟨op, hop⟩ := hopc
      rw [or_iff_right hassigned]
      simp [hop, opcode_injective.eq_iff]
    · have hreserved := not_not.1 (mt (exists_opcode_eq_iff _).2 hopc)
      exact iff_of_true (fun ⟨op, hop, _⟩ => hopc ⟨op, hop⟩) (.inl hreserved)
  case issued =>
    cases hd : decode w with
    | ok i => exact ⟨_, (issueWord_of_ok hd hs).trans (exec_eq_respond i s), nofun, fun _ => by simp [hs]⟩
    | error e => exact ⟨_, issueWord_of_error hd hs, fun _ => State.takeFault_illegal_of_none w hs, nofun⟩

/-- Settles O19: of the effects a step can have, a command and IllegalCommand ask that no fault stand, a read keeps
the one that stands, and reset clears it. -/
theorem firstFaultStaysUntilReset : Obligations.FirstFaultStaysUntilReset :=
  fun _ _ _ => step_fault_of_standing

/-- Settles O20: an issue is stopped before it is decoded, and a read is a step that is no reset. -/
theorem faultedCoreAcceptsNoWord : Obligations.FaultedCoreAcceptsNoWord := by
  refine fun s f hs => ⟨fun w rest hp => ?issue, fun a rest hp ha => ?read⟩
  case issue =>
    rw [step_of_pending hp]
    exact issueWord_of_fault (s := s.setPending rest) hs w
  case read =>
    obtain ⟨t, ht, hreg, hstatus⟩ := performAction_of_isRead ha (s.setPending rest)
    have hstep : step s = .next t := (step_of_pending hp).trans ht
    refine ⟨t, hstep, by simpa using hreg, ?_, hstatus⟩
    refine (step_fault_of_standing hs hstep).resolve_right ?_
    rintro ⟨-, a', rest', hp', ha'⟩
    obtain ⟨rfl, -⟩ := List.cons.inj (hp.symm.trans hp')
    exact not_isReset_of_isRead ha ha'

/-- Settles O22: the step is the data read, on the state with that action taken. -/
theorem readingNoneRecordsReadNoValue : Obligations.ReadingNoneRecordsReadNoValue := by
  intro s r rest hp
  obtain ⟨hreg, hpending, hsome, hnone⟩ := readData_spec r (s.setPending rest)
  simp only [State.reg_setPending, State.setPending_fault, State.setPending_observed] at hreg hsome hnone
  refine ⟨_, step_of_pending hp, hreg, status_readData r _, hpending, hsome, fun hr => ?_⟩
  obtain ⟨hfault, hobserved⟩ := hnone hr
  exact ⟨hobserved, fun hs => by rw [hfault, hs, Option.none_or], fun f hs => by rw [hfault, hs, Option.some_or]⟩

/-- Settles O10: every command is a response, which leaves the fault record. -/
theorem decodedCommandsNeverFault : Obligations.DecodedCommandsNeverFault :=
  fun i s => ⟨_, exec_eq_respond i s, State.respond_fault ..⟩

/-- Settles O30: the new vector is the old one set at the one place. -/
theorem instancesShareNoState : Obligations.InstancesShareNoState := by
  intro n cores cores' k j h
  obtain ⟨t, ht, rfl⟩ := stepInstance_cases h
  refine ⟨by simpa using ht, fun hj => ?_⟩
  have hne : k.val ≠ j.val := fun h => hj (Fin.ext h.symm)
  simp [hne]

end Sys2Proof.ExceptionProofs

namespace Sys2Proof.ResetProofs

open Sys2Proof.Machine Sys2Proof.Statements Sys2Proof.StateProofs Sys2Proof.KeyScheduleProofs
  Sys2Proof.ExceptionProofs

/-! SUPPORT for the statements of 70_reset_and_hazards.md: what a reset action does, when an action and the host's
duty let a step go on, and a register outside a command's write set. -/

/-! ### Reset -/

/-- With no fault standing STATUS is all zero (R29). -/
theorem status_of_no_fault {s : State} (h : s.fault = none) : s.status = ⟨0#1, 0#4, 0#40⟩ := by
  rw [s.status_of_fault, h]

/-- Either form of reset, taken by a step, is the one reset operation (R136, R137). -/
theorem step_of_isReset {s : State} {a : HostAction} {rest : List HostAction} (ha : a.isReset)
    (hp : s.pending = a :: rest) : step s = .next (s.setPending rest).applyReset := by
  rw [step_of_pending hp]
  cases a with
  | reset | resetInFlight w => rfl
  | issue w | readData r | readValid r | readStatus => exact ha.elim

/-- A step that ends a standing fault took a reset (R116, R137). -/
theorem isReset_of_step_ends_fault {s t : State} {a : HostAction} {rest : List HostAction}
    (hp : s.pending = a :: rest) (h : step s = .next t) (hs : s.fault ≠ none) (ht : t.fault = none) :
    a.isReset := by
  obtain ⟨f, hf⟩ := Option.ne_none_iff_exists'.1 hs
  rcases step_fault_of_standing hf h with hstands | ⟨-, a', rest', hp', ha'⟩
  · cases ht.symm.trans hstands
  · obtain ⟨rfl, -⟩ := List.cons.inj (hp.symm.trans hp')
    exact ha'

/-! ### When a step goes on -/

/-- An issue answers a next state exactly when no fault stands, whether or not the word decodes (R118, R123). -/
theorem exists_issueWord_eq_next_iff (w : CommandWord) (s : State) :
    (∃ t, issueWord w s = .next t) ↔ s.fault = none := by
  refine ⟨fun ⟨_, h⟩ => (issueWord_cases h).1, fun hs => ?_⟩
  cases hd : decode w with
  | ok i => exact ⟨_, (issueWord_of_ok hd hs).trans (exec_eq_respond i s)⟩
  | error e => exact ⟨_, issueWord_of_error hd hs⟩

/-- With an action pending a step goes on exactly when the host keeps duty (c): an issue asks that no fault
stand, every other action asks nothing (R143). -/
theorem exists_step_eq_next_iff_of_pending {s : State} {a : HostAction} {rest : List HostAction}
    (hp : s.pending = a :: rest) : (∃ t, step s = .next t) ↔ s.keepsDuty := by
  rw [step_of_pending hp, State.keepsDuty, hp]
  cases a with
  | issue w =>
    have hissue := exists_issueWord_eq_next_iff w (s.setPending rest)
    exact hissue.trans ⟨fun hs _ _ _ => hs, fun hduty => hduty w rest rfl⟩
  | readData r | readValid r | readStatus | reset | resetInFlight w => exact iff_of_true ⟨_, rfl⟩ nofun

/-! ### A register outside a command's write set -/

/-- A command leaves a register outside its write set NONE (R26). -/
theorem reg_eq_none_of_not_mem_writeSet {i : Instr} {s t : State} {r : RespReg} (h : exec i s = .next t)
    (hr : r ∉ writeSet i.op) : t.reg r = none := by
  rw [exec_eq_respond] at h
  injection h with h
  subst h
  exact not_ne_iff.1 (mt (reg_command_ne_none_iff i s r).1 hr)

/-! ### The statements -/

/-- Settles O11: the command leaves the register NONE, so its read observes nothing and records ReadNoValue. -/
theorem resultsAreLostAtTheNextCommand : Obligations.ResultsAreLostAtTheNextCommand := by
  intro i s t r hs h hr
  have hnone : t.reg r = none := reg_eq_none_of_not_mem_writeSet h hr
  obtain ⟨-, -, -, hread⟩ := readData_spec r t
  exact ⟨hnone, (hread hnone).2, fault_readData_of_not_mem_writeSet hs h hr⟩

/-- Settles O15: a reset action is the reset operation, and a standing fault outlives every other action. -/
theorem resetClearsEveryRegisterAndFault : Obligations.ResetClearsEveryRegisterAndFault := by
  refine ⟨fun s rest hp => ?action, fun _ => State.reg_reset .., status_of_no_fault rfl, rfl,
    fun _ _ _ _ => isReset_of_step_ends_fault⟩
  case action =>
    exact ⟨_, step_of_isReset (a := .reset) trivial hp, fun _ => State.reg_applyReset ..,
      status_of_no_fault rfl, rfl, rfl, rfl⟩

/-- Settles O21: with nothing pending the step goes on and no issue is there to break the duty. -/
theorem stepStopsOnlyOnIssueOverAFault : Obligations.StepStopsOnlyOnIssueOverAFault := by
  intro s
  cases hp : s.pending with
  | nil =>
    refine iff_of_true ⟨s, step_of_idle hp⟩ fun w rest h => ?_
    cases hp.symm.trans h
  | cons a rest => exact exists_step_eq_next_iff_of_pending hp

/-- Settles O16: the reset in flight and the plain reset are the same reset operation, whatever the word. -/
theorem resetInFlightAbandonsTheCommand : Obligations.ResetInFlightAbandonsTheCommand := by
  intro s w rest hp
  have hstep : step s = .next (s.setPending rest).applyReset :=
    step_of_isReset (a := .resetInFlight w) trivial hp
  have hplain : step (s.setPending (.reset :: rest)) = .next (s.setPending rest).applyReset :=
    step_of_isReset (a := .reset) trivial rfl
  exact ⟨⟨_, hstep, fun _ => State.reg_applyReset .., rfl, rfl⟩, hstep.trans hplain.symm⟩

end Sys2Proof.ResetProofs
